-- ==== Sys2Proof/Word.lean ====
section
/-! DEFINITION. The word of the block's ports and of its register file (spec/00_scope.md R6, R11). -/

namespace Sys2Proof

/-- A 32-bit word, bit 0 the least significant (00_scope.md R6 `WORD`, R11). -/
abbrev Word := BitVec 32

end Sys2Proof
end

