-- ==== Sys2Proof/Config.lean ====
section
/-! DEFINITION. The parameters the spec leaves open (spec/00_scope.md R7), as plain data, the constants without a body that
stand for those of the machine at reset, and the free value of the lock-detect input (10_state.md R42). -/

namespace Sys2Proof

/-- `R4_COUPLING` (00_scope.md R7): which dirty register 4 forces register 0 dirty (42_writeback.md R157, R161). -/
inductive Coupling where
  | unconditional
  | divaChange
  deriving DecidableEq, Repr

/-- The parameters of 00_scope.md R7 that the block reads. They are "configuration, fixed before power-on, and no command
sets them" (70_reset_and_hazards.md R223). `WIRE_ORDER` belongs to the Transport and is not read by the block. -/
structure Config where
  /-- The data bits [31:3] of the seven words of `DEFAULT_IMAGE`; the tag bits are the index (10_state.md R22). -/
  image : Vector (BitVec 29) 7
  /-- `SETTLE_MS`. -/
  settleMs : Nat
  /-- `R4_COUPLING`. -/
  coupling : Coupling
  deriving DecidableEq, Repr

namespace Config

/-- Word `i` of `DEFAULT_IMAGE`: its data bits above the tag `i` (10_state.md R22: `DEFAULT_IMAGE[i][2:0] = i`). -/
def imageWord (c : Config) (i : Fin 7) : Word := c.image[i] ++ BitVec.ofNat 3 i

/-- `DEFAULT_IMAGE` (00_scope.md R7, 10_state.md R22). -/
def defaultImage (c : Config) : Vector Word 7 :=
  #v[c.imageWord 0, c.imageWord 1, c.imageWord 2, c.imageWord 3, c.imageWord 4, c.imageWord 5, c.imageWord 6]

/-- The data bits of the fitted block's default image. The spec gives no value (92_eei_decisions.md D10): no body, so a claim
about the machine at reset holds for every image that meets the tag condition. -/
opaque fittedImage : Vector (BitVec 29) 7

/-- The fitted block's settle delay. The spec gives no value (92_eei_decisions.md D11): no body. -/
opaque fittedSettleMs : Nat

/-- The parameters of the machine at reset: image and delay left open, the coupling policy at the spec's default
(00_scope.md R7 "default `UNCONDITIONAL`"). -/
def fitted : Config :=
  { image := fittedImage, settleMs := fittedSettleMs, coupling := .unconditional }

/-- The lock-detect bit at a draw for which the run was given no sample: any value, with no law on it (10_state.md R42,
93_implementation_defined.md U11). A free value: no body, a fresh value at each draw. -/
opaque lockDetect : Nat → Bool

end Config

end Sys2Proof
end

