-- ==== Sys2Proof/Machine/State.lean ====
section
/-! DEFINITION. The state of the block (spec/10_state.md R20 to R27), its ports as plain data (R40 to R45), the reasons a step
stops, and the state after power-on reset (R46, spec/70_reset_and_hazards.md R220). -/

namespace Sys2Proof.Machine

/-- The controller mode (10_state.md R24). -/
inductive Mode where
  | uninit
  | cold
  | steady
  deriving DecidableEq, Repr

/-- The write-back sequencer's phase: which Transport event comes next (10_state.md R25). -/
inductive SeqPhase where
  | idle
  | csR5
  | csDelay
  | csR4
  | csR3
  | csR2
  | csR1
  | csR0
  /-- The steady pass is about to test register `i`. -/
  | wb (i : Fin 7)
  deriving DecidableEq, Repr

/-- The faults of 60_exceptions.md R201, by name; `faultNumber` gives the code of each. -/
inductive FaultCode where
  | illegal
  | uninit
  | solveDomain
  | projDomain
  deriving DecidableEq, Repr

/-- The fault record: a code and the header word of the faulting command (60_exceptions.md R200). -/
structure FaultRecord where
  code : FaultCode
  header : Word
  deriving DecidableEq, Repr

/-- A Transport event (10_state.md R40). -/
inductive Event where
  | write (w : Word)
  | delay (ms : Nat)
  deriving DecidableEq, Repr

/-- One thing the outside does to the block at its command port or its power-on reset input (10_state.md R43, R45). -/
inductive HostInput where
  /-- A word offered on the command port. -/
  | word (w : Word)
  /-- The power-on reset input is asserted while no command is running. -/
  | powerOn
  /-- The power-on reset input is asserted inside the command whose words stand just before, after `events` of its Transport
  events (70_reset_and_hazards.md R221); with no such command running it is `powerOn`. -/
  | powerOnDuring (events : Nat)
  deriving DecidableEq, Repr

/-- Why the machine stops. -/
inductive Fault where
  /-- Raised by `step` alone, at a block that holds a fault record while no power-on reset is offered: "the block takes no
  further command" (10_state.md R27, 60_exceptions.md R200). Safe: it is the spec's own stop. -/
  | stopped (r : FaultRecord)
  deriving DecidableEq, Repr

/-- Why an instruction has no meaning. -/
inductive Refusal where
  /-- For an arm of `exec` without a meaning; no arm raises it now. Safe. -/
  | notModelled (mnemonic : String)
  deriving DecidableEq, Repr

/-- The state of the block (10_state.md R20), its parameters (00_scope.md R7), and its ports as plain data. -/
structure State where
  /-- The shadow register file (R21). -/
  regs : Vector Word 7
  /-- The dirty mask, bit i for register i (R23). -/
  dirty : BitVec 7
  /-- The controller mode (R24). -/
  mode : Mode
  /-- The sequencer phase (R25). -/
  seq : SeqPhase
  /-- The DIVA field of the last register-4 word sent (R26). -/
  lastDiva : BitVec 3
  /-- The fault record, if a fault is recorded (R27). -/
  fault : Option FaultRecord
  /-- The parameters of 00_scope.md R7, which nothing changes: the model's argument (log entry 2). -/
  cfg : Config
  /-- The model's own: what the host still does at the command port and the power-on reset input, oldest first (R43, R45). -/
  inbox : List HostInput
  /-- The model's own: samples of the lock-detect input given to the run, oldest first (R42). -/
  ldInputs : List Bool
  /-- The model's own: how many lock-detect samples were drawn freely (R42). -/
  ldDraws : Nat
  /-- The Transport events emitted so far, oldest first (R40; 00_scope.md R10). -/
  events : List Event
  /-- The response words returned so far, oldest first (R44; 00_scope.md R10). -/
  responses : List Word
  deriving DecidableEq, Repr

/-- The state after power-on reset (10_state.md R46, 70_reset_and_hazards.md R220), with nothing offered and nothing shown. -/
def State.reset : State :=
  { regs := Config.fitted.defaultImage
    dirty := 0b1111111
    mode := .uninit
    seq := .idle
    lastDiva := 0
    fault := none
    cfg := Config.fitted
    inbox := []
    ldInputs := []
    ldDraws := 0
    events := []
    responses := [] }

end Sys2Proof.Machine
end

