-- ==== Sys2Proof/Machine/Ops.lean ====
section
/-! DEFINITION. The named operations over the state: the primitives of spec/00_scope.md R13, raising a fault
(spec/60_exceptions.md R200), and the power-on reset, the only way out of a fault (R209, spec/70_reset_and_hazards.md R220). -/

namespace Sys2Proof.Machine

/-- What a command or a step answers. -/
abbrev Result := Host.Outcome State Fault Refusal

/-- `regs[i]` (00_scope.md R13). -/
def readReg (i : Fin 7) (s : State) : Word := s.regs[i]

/-- `regs[i] <- v` (00_scope.md R13). -/
def writeReg (i : Fin 7) (v : Word) (s : State) : State := { s with regs := s.regs.set i v }

/-- `Emit(e)` (00_scope.md R13): the event follows every earlier one (10_state.md R41, 20_memory.md R61). -/
def emit (e : Event) (s : State) : State := { s with events := s.events ++ [e] }

/-- `Respond(v0, v1, ...)` (00_scope.md R13, 10_state.md R44). -/
def respond (ws : List Word) (s : State) : State := { s with responses := s.responses ++ ws }

/-- `SampleLD()` (00_scope.md R13, 10_state.md R42): the next sample given to the run, or a free value where none is left. -/
def sampleLD (s : State) : Bool × State :=
  match s.ldInputs with
  | b :: rest => (b, { s with ldInputs := rest })
  | [] => (Config.lockDetect s.ldDraws, { s with ldDraws := s.ldDraws + 1 })

/-- The code of a fault in the table of 60_exceptions.md R201. -/
def faultNumber : FaultCode → Nat
  | .illegal => 1
  | .uninit => 2
  | .solveDomain => 3
  | .projDomain => 4

/-- The fault record as the spec writes it, `(code, H)` (60_exceptions.md R200). -/
def faultPair (r : FaultRecord) : Nat × Word := (faultNumber r.code, r.header)

/-- `raise F_<name>` (60_exceptions.md R200): record the code and the header, and change nothing else. -/
def raise (code : FaultCode) (header : Word) (s : State) : Result :=
  .next { s with fault := some { code := code, header := header } }

/-- The check at the start of a controller command's rule (60_exceptions.md R201, R207): F_UNINIT in mode UNINIT, else `body`. -/
def unlessUninit (header : Word) (s : State) (body : Result) : Result :=
  if s.mode = .uninit then raise .uninit header s else body

/-- Power-on reset (70_reset_and_hazards.md R220): the power-on state of 10_state.md R46, from any state; what the run has shown
stays (R221), and `rest` is what the host does afterwards. -/
def powerOn (rest : List HostInput) (s : State) : State :=
  { s with
    regs := s.cfg.defaultImage
    dirty := 0b1111111
    mode := .uninit
    seq := .idle
    lastDiva := 0
    fault := none
    inbox := rest }

end Sys2Proof.Machine
end

