-- ==== Sys2Proof/Syntax.lean ====
section
/-! DEFINITION. The ten commands of spec/opcode_table.json with their operands at the widths of spec/30_encoding.md R71 to R76.
Every term of `Instr` is a command: the operands' types are exactly the fields, and "every value of the three fields is
encodable" (R72), so that no condition on a term is left to check. -/

namespace Sys2Proof

/-- A command of the block, one constructor per row of the opcode table (30_encoding.md R78). -/
inductive Instr where
  /-- 0x10, format S: divider values for a target and a reference frequency in hertz (40_solver.md R100). -/
  | solve (targetHz refHz : BitVec 64)
  /-- 0x11, format J: the frequency of divider values, as an exact numerator (40_solver.md R110). -/
  | proj (n : Word) (frac modulus : BitVec 16) (diva : BitVec 8) (refHz : BitVec 64)
  /-- 0x01, format Z: load the default image and run the cold start (42_writeback.md R150). -/
  | reset
  /-- 0x03, format F and one operand word: write one field of a shadow word (41_field_access.md R130). -/
  | setf (reg hi lo : BitVec 8) (value : Word)
  /-- 0x04, format F: read one field of a shadow word (41_field_access.md R135). -/
  | getf (reg hi lo : BitVec 8)
  /-- 0x02, format Z: send every dirty register (42_writeback.md R151). -/
  | flush
  /-- 0x05, format O: the two output enables (43_output_and_status.md R180). -/
  | outsel (ena enb : BitVec 1)
  /-- 0x06, format P: an output power level in dBm (two's complement) for a port selection (43_output_and_status.md R183). -/
  | outpwr (level : BitVec 8) (port : BitVec 2)
  /-- 0x12, format S: solve and program the dividers (43_output_and_status.md R186). -/
  | setfreq (targetHz refHz : BitVec 64)
  /-- 0x07, format Z: the lock-detect bit (43_output_and_status.md R190). -/
  | lockq
  deriving DecidableEq, Repr

end Sys2Proof
end

