-- ==== Sys2Proof/Decode.lean ====
section
/-! DEFINITION. The command encoding of spec/30_encoding.md: the opcode map (R78), decoding a header and assembling the operands
(R70 to R77, R79, R81), and the encoder, written from the same formats. -/

namespace Sys2Proof

/-- The rows of the opcode map (R78). -/
inductive Op where
  | solve | proj | reset | setf | getf | flush | outsel | outpwr | setfreq | lockq
  deriving DecidableEq, Repr

/-- The rows in the source's order (R78). -/
def opRows : List Op :=
  [.solve, .proj, .reset, .setf, .getf, .flush, .outsel, .outpwr, .setfreq, .lockq]

/-- The opcode OPC, header bits [7:0] (R70, R78). -/
def opCode : Op → BitVec 8
  | .solve => 0x10
  | .proj => 0x11
  | .reset => 0x01
  | .setf => 0x03
  | .getf => 0x04
  | .flush => 0x02
  | .outsel => 0x05
  | .outpwr => 0x06
  | .setfreq => 0x12
  | .lockq => 0x07

/-- `mask(r)`: the header bits a row fixes, its opcode and its reserved bits (R78). -/
def opMask : Op → Word
  | .reset | .flush | .lockq | .solve | .setfreq => 0xFFFFFFFF
  | .setf | .getf => 0x000000FF
  | .outsel => 0xFFFFFCFF
  | .outpwr => 0xFFFC00FF
  | .proj => 0xFFFF00FF

/-- `match(r)`: the opcode zero-extended (R78). -/
def opMatch (r : Op) : Word := (opCode r).setWidth 32

/-- Operand words after the header (R78). -/
def operandWords : Op → Nat
  | .solve | .proj | .setfreq => 4
  | .setf => 1
  | .reset | .getf | .flush | .outsel | .outpwr | .lockq => 0

/-- Response words of the command (R78, R80). -/
def responseWords : Op → Nat
  | .solve => 6
  | .proj => 4
  | .getf | .lockq => 1
  | .reset | .setf | .flush | .outsel | .outpwr | .setfreq => 0

/-- `Decode(H)` (R79): the row the header selects, or none for an illegal header. -/
def decodeHeader (h : Word) : Option Op :=
  opRows.find? fun r => h &&& opMask r == opMatch r

/-- Operand assembly (R72 to R77): the command of a legal header and its operand words, with the words left over; none where
operand words are missing. 64-bit operands are `(word_hi, word_lo)` with the low word first. -/
def assembleOperands (r : Op) (h : Word) (ws : List Word) : Option (Instr × List Word) :=
  match r, ws with
  | .solve, t0 :: t1 :: r0 :: r1 :: rest => some (.solve (t1 ++ t0) (r1 ++ r0), rest)
  | .proj, n :: fm :: r0 :: r1 :: rest =>
    some (.proj n (fm.extractLsb' 0 16) (fm.extractLsb' 16 16) (h.extractLsb' 8 8) (r1 ++ r0), rest)
  | .reset, rest => some (.reset, rest)
  | .setf, v :: rest =>
    some (.setf (h.extractLsb' 8 8) (h.extractLsb' 16 8) (h.extractLsb' 24 8) v, rest)
  | .getf, rest => some (.getf (h.extractLsb' 8 8) (h.extractLsb' 16 8) (h.extractLsb' 24 8), rest)
  | .flush, rest => some (.flush, rest)
  | .outsel, rest => some (.outsel (h.extractLsb' 8 1) (h.extractLsb' 9 1), rest)
  | .outpwr, rest => some (.outpwr (h.extractLsb' 8 8) (h.extractLsb' 16 2), rest)
  | .setfreq, t0 :: t1 :: r0 :: r1 :: rest => some (.setfreq (t1 ++ t0) (r1 ++ r0), rest)
  | .lockq, rest => some (.lockq, rest)
  | .solve, _ | .proj, _ | .setf, _ | .setfreq, _ => none

/-- What decoding the words on the command port gives. -/
inductive Decoded where
  /-- A command, and the words after it. -/
  | command (i : Instr) (rest : List Word)
  /-- The first word spells no command (R79); no operand word is taken. -/
  | illegal (h : Word)
  /-- There is no header yet, or a legal header whose operand words have not all come. -/
  | incomplete
  deriving DecidableEq, Repr

/-- Decode the words on the command port, the header first and completely (R70, R79, R81). Total on any words. -/
def decode : List Word → Decoded
  | [] => .incomplete
  | h :: ws =>
    match decodeHeader h with
    | none => .illegal h
    | some r =>
      match assembleOperands r h ws with
      | none => .incomplete
      | some (i, rest) => .command i rest

/-- The low `k` 32-bit words of a value, least significant first (20_memory.md R54). -/
def splitWords : Nat → Nat → List Word
  | 0, _ => []
  | k + 1, v => BitVec.ofNat 32 v :: splitWords k (v / 2 ^ 32)

/-- The row of the opcode map a command belongs to. -/
def Instr.op : Instr → Op
  | .solve .. => .solve
  | .proj .. => .proj
  | .reset => .reset
  | .setf .. => .setf
  | .getf .. => .getf
  | .flush => .flush
  | .outsel .. => .outsel
  | .outpwr .. => .outpwr
  | .setfreq .. => .setfreq
  | .lockq => .lockq

/-- The header word H of a command, its fields from the high end down (R71 to R76). -/
def Instr.header : Instr → Word
  | .solve _ _ => 0#24 ++ 0x10#8
  | .proj _ _ _ diva _ => 0#16 ++ diva ++ 0x11#8
  | .reset => 0#24 ++ 0x01#8
  | .setf reg hi lo _ => lo ++ hi ++ reg ++ 0x03#8
  | .getf reg hi lo => lo ++ hi ++ reg ++ 0x04#8
  | .flush => 0#24 ++ 0x02#8
  | .outsel ena enb => 0#22 ++ enb ++ ena ++ 0x05#8
  | .outpwr level port => 0#14 ++ port ++ level ++ 0x06#8
  | .setfreq _ _ => 0#24 ++ 0x12#8
  | .lockq => 0#24 ++ 0x07#8

/-- The operand words of a command in the order they follow the header (R72, R75, R76). -/
def Instr.operands : Instr → List Word
  | .solve targetHz refHz => splitWords 2 targetHz.toNat ++ splitWords 2 refHz.toNat
  | .proj n frac modulus _ refHz => [n, modulus ++ frac] ++ splitWords 2 refHz.toNat
  | .setf _ _ _ value => [value]
  | .setfreq targetHz refHz => splitWords 2 targetHz.toNat ++ splitWords 2 refHz.toNat
  | .reset | .getf _ _ _ | .flush | .outsel _ _ | .outpwr _ _ | .lockq => []

/-- The words of a command as the host sends them (R70). -/
def encode (i : Instr) : List Word := i.header :: i.operands

/-- The length of a command in words, from its opcode alone (R81). -/
def commandLength (i : Instr) : Nat := 1 + operandWords i.op

/-- The words of a command whose lowest `nbits` bits are `w` and whose other bits are 0, bit 0 being bit 0 of the header and a
later word's bits counting on from it; as many words as the longest command has. -/
def tableWords (nbits w : Nat) : List Word := splitWords 5 (w % 2 ^ nbits)

/-- The command this decoder reads from `tableWords nbits w`. -/
def decodeTableWord (nbits w : Nat) : Option Instr :=
  match decode (tableWords nbits w) with
  | .command i _ => some i
  | .illegal _ | .incomplete => none

end Sys2Proof
end

