-- ==== Sys2Proof/Machine/Solver.lean ====
section
/-! DEFINITION. The divider solver (spec/40_solver.md): the search the commands run, in integers over the common denominator, and
beside it the pseudocode of R100 in exact rationals, which it stands for; and the inverse (R110). -/

namespace Sys2Proof.Machine

/-- The solver's result (10_state.md R31). `R` is always 1 (40_solver.md R101). -/
structure DividerState where
  n : Nat
  frac : Nat
  modulus : Nat
  diva : Nat
  rDiv : Nat
  fpfd : Nat
  deriving DecidableEq, Repr

/-- A numerator and modulus tried by the search. -/
structure Candidate where
  f : Nat
  m : Nat
  deriving DecidableEq, Repr

/-- `VCO_LOW` in hertz (00_scope.md R6, 40_solver.md R102). -/
def vcoLow : Nat := 3000000000

/-- `R_DIV` (00_scope.md R6, 40_solver.md R101). -/
def rDiv : Nat := 1

/-- Step 2 (R102): double the frequency and count while it is below the bound. The first argument bounds the doublings; 32 are
enough for every positive frequency (R102). -/
def doubleUp : Nat → Nat → Nat → Nat × Nat
  | 0, fvco, diva => (fvco, diva)
  | fuel + 1, fvco, diva => if fvco < vcoLow then doubleUp fuel (2 * fvco) (diva + 1) else (fvco, diva)

/-- Step 4's numerator for modulus `m` (R104): `p/q * m` rounded half up, truncated to 12 bits. -/
def roundedNumerator (p q m : Nat) : Nat := (2 * (p * m) + q) / (2 * q) % 2 ^ 12

/-- The candidate of modulus `m` for the remainder `p/q`. -/
def candidate (p q m : Nat) : Candidate := { f := roundedNumerator p q m, m := m }

/-- The candidate's VCO error in hertz times its modulus: `|q * F/M - p| * M`, where `q` is Fpfd and `p` the remainder of Fvco. -/
def scaledError (p q : Nat) (c : Candidate) : Nat := (q * c.f - p * c.m) + (p * c.m - q * c.f)

/-- The search of R104 below modulus `k + 2`, the best candidate so far in hand: it stops at an error of 0, and replaces the best
only on a strictly smaller error. Errors `e/m` are compared by cross-multiplication. -/
def searchBelow (p q : Nat) : Nat → Candidate → Candidate
  | 0, best => best
  | k + 1, best =>
    if scaledError p q best = 0 then best
    else if scaledError p q (candidate p q (k + 2)) * best.m < scaledError p q best * (k + 2) then
      searchBelow p q k (candidate p q (k + 2))
    else searchBelow p q k best

/-- Step 4 (R104): moduli 4095 down to 2. -/
def search (p q : Nat) : Candidate := searchBelow p q 4093 (candidate p q 4095)

/-- `Solve` (R100 without its domain check and response) on a target and a reference in hertz. -/
def solve (targetHz refHz : Nat) : DividerState :=
  let fpfd := refHz / rDiv
  let (fvco, diva) := doubleUp 32 targetHz 0
  let best := search (fvco % fpfd) fpfd
  { n := fvco / fpfd, frac := best.f, modulus := best.m, diva := diva, rDiv := rDiv, fpfd := fpfd }

/-- `round(q)` for `q ≥ 0`: half up (00_scope.md R12). -/
def roundHalfUp (q : Rat) : Nat := (q + 1 / 2).floor.toNat

/-- A candidate of R100's loop with its error. -/
structure ExactCandidate where
  f : Nat
  m : Nat
  err : Rat

/-- One turn of R100's loop for modulus `m`. -/
def exactCandidate (fpfd fvco frac : Rat) (n m : Nat) : ExactCandidate :=
  let f := roundHalfUp (frac * m) % 2 ^ 12
  { f := f, m := m, err := |fpfd * (n + (f : Rat) / m) - fvco| }

/-- R100's loop from modulus `k + 1` down to 2, `best` as the turns above left it, with its replacement rule and its break. -/
def exactLoop (fpfd fvco frac : Rat) (n : Nat) : Nat → Option ExactCandidate → Option ExactCandidate
  | 0, best => best
  | k + 1, best =>
    let c := exactCandidate fpfd fvco frac n (k + 2)
    let best' :=
      match best with
      | none => some c
      | some b => if c.err < b.err then some c else some b
    if c.err = 0 then best' else exactLoop fpfd fvco frac n k best'

/-- Step 2 of R100 in exact rationals, with the bound of `doubleUp` on the doublings. -/
def exactDouble : Nat → Rat → Nat → Rat × Nat
  | 0, fvco, diva => (fvco, diva)
  | fuel + 1, fvco, diva => if fvco < 3000000000 then exactDouble fuel (2 * fvco) (diva + 1) else (fvco, diva)

/-- The pseudocode of R100 in exact rationals: none where its loop finds no candidate. -/
def exactSolve (targetHz refHz : Nat) : Option DividerState :=
  let fpfd : Rat := refHz / 1
  let (fvco, diva) := exactDouble 32 targetHz 0
  let ratio : Rat := fvco / fpfd
  let n : Nat := ratio.floor.toNat
  let frac : Rat := ratio - n
  (exactLoop fpfd fvco frac n 4094 none).map fun best =>
    { n := n, frac := best.f, modulus := best.m, diva := diva, rDiv := 1, fpfd := refHz }

/-- SOLVE's response (40_solver.md R108, 30_encoding.md R80): N, then M above Frac, DIVA, and Fpfd. -/
def solveResponse (d : DividerState) : List Word :=
  splitWords 2 d.n ++ [BitVec.ofNat 16 d.modulus ++ BitVec.ofNat 16 d.frac, BitVec.ofNat 32 d.diva] ++ splitWords 2 d.fpfd

/-- `NUM` of R110: the exact numerator of the output frequency over `MOD * 2^DIVA`. -/
def projectNumerator (n frac modulus refHz : Nat) : Nat := refHz / rDiv * (n * modulus + frac)

/-- PROJ's response (R110, 30_encoding.md R80): the 128 bits of `NUM`. -/
def projectResponse (num : Nat) : List Word := splitWords 4 num

end Sys2Proof.Machine
end

