-- ==== Sys2Proof/Machine/Divider.lean ====
section
/-! DEFINITION. The commands of the divider solver: SOLVE and PROJ (spec/40_solver.md R100 to R111). Both are accepted in every mode
and touch no controller state. -/

namespace Sys2Proof.Machine

/-- SOLVE (R100, R109). -/
def execSolve (targetHz refHz : BitVec 64) (s : State) : Result :=
  if targetHz = 0 ∨ refHz = 0 then raise .solveDomain (Instr.solve targetHz refHz).header s
  else .next (respond (solveResponse (solve targetHz.toNat refHz.toNat)) s)

/-- PROJ (R110, R111). -/
def execProj (n : Word) (frac modulus : BitVec 16) (diva : BitVec 8) (refHz : BitVec 64) (s : State) : Result :=
  if modulus = 0 ∨ refHz = 0 then raise .projDomain (Instr.proj n frac modulus diva refHz).header s
  else .next (respond (projectResponse (projectNumerator n.toNat frac.toNat modulus.toNat refHz.toNat)) s)

end Sys2Proof.Machine
end

