-- ==== Sys2Proof/Machine/Flags.lean ====
section
/-! DEFINITION. The dirty mask, the block's only flags beside mode and fault (spec/10_state.md R23, R28), and the coupling rule over
it (spec/42_writeback.md R157, R161). -/

namespace Sys2Proof.Machine

/-- `dirty[i]` (00_scope.md R13). -/
def isDirty (i : Fin 7) (s : State) : Bool := s.dirty.getLsbD i

/-- `dirty[i] <- 1`. -/
def setDirty (i : Fin 7) (s : State) : State := { s with dirty := s.dirty ||| BitVec.twoPow 7 i }

/-- `dirty[i] <- 0`. -/
def clearDirty (i : Fin 7) (s : State) : State := { s with dirty := s.dirty &&& ~~~(BitVec.twoPow 7 i) }

/-- `dirty <- 0b1111111`. -/
def setAllDirty (s : State) : State := { s with dirty := 0b1111111 }

/-- The DIVA field of a register-4 word, bits [22:20] (10_state.md R29). -/
def divaOf (w : Word) : BitVec 3 := w.extractLsb' 20 3

/-- Whether the coupling rule forces register 0 dirty (42_writeback.md R157). -/
def forcesReg0 (s : State) : Bool :=
  match s.cfg.coupling with
  | .unconditional => isDirty 1 s || isDirty 4 s
  | .divaChange => isDirty 1 s || (isDirty 4 s && divaOf (readReg 4 s) != s.lastDiva)

/-- `Couple()` (42_writeback.md R157). -/
def couple (s : State) : State := if forcesReg0 s then setDirty 0 s else s

end Sys2Proof.Machine
end

