-- ==== Sys2Proof/Machine/Operands.lean ====
section
/-! DEFINITION. The operand forms: a field of a shadow word, read and written (spec/41_field_access.md R130 to R136), and the
output power level (spec/43_output_and_status.md R182). -/

namespace Sys2Proof.Machine

/-- A field a command may reach: a register and its bits `hi` down to `lo` (20_memory.md R51, R52). -/
structure Field where
  reg : Fin 7
  hi : Nat
  lo : Nat
  deriving DecidableEq, Repr

/-- The two bit positions put in order, the higher first (41_field_access.md R131). -/
def normalise (hi lo : Nat) : Nat × Nat := if hi ≥ lo then (hi, lo) else (lo, hi)

/-- The field that REG, HI and LO name, or none where the command rejects them (41_field_access.md R131, R132). -/
def fieldOf (reg hi lo : Nat) : Option Field :=
  let (h, l) := normalise hi lo
  if l < 3 ∨ h > 31 ∨ reg > 6 then none else some { reg := Fin.ofNat 7 reg, hi := h, lo := l }

/-- `mask(hi, lo)` (00_scope.md R11). -/
def mask (hi lo : Nat) : Word := BitVec.ofNat 32 (2 ^ (hi - lo + 1) - 1) <<< lo

/-- The word `old` with `value` in bits [hi:lo] (41_field_access.md R130, R133). -/
def insertBits (hi lo value : Nat) (old : Word) : Word :=
  (old &&& ~~~(mask hi lo)) ||| ((BitVec.ofNat 32 value <<< lo) &&& mask hi lo)

/-- `zext_32(w[hi:lo])` (00_scope.md R11, R12; 41_field_access.md R135). -/
def extractBits (hi lo : Nat) (w : Word) : Word := (w.extractLsb hi lo).setWidth 32

/-- Write a field, and mark its register dirty if the word changes (41_field_access.md R130, R134). -/
def writeField (f : Field) (value : Nat) (s : State) : State :=
  let new := insertBits f.hi f.lo value (readReg f.reg s)
  if new = readReg f.reg s then s else setDirty f.reg (writeReg f.reg new s)

/-- The body of SETF from its normalisation step on (41_field_access.md R130; 43_output_and_status.md uses it inside its own
commands, with the value a natural number). -/
def setField (reg hi lo value : Nat) (s : State) : State :=
  match fieldOf reg hi lo with
  | none => s
  | some f => writeField f value s

/-- The word GETF answers: the field, or 0 where the operands name none (41_field_access.md R135, R136). -/
def getField (reg hi lo : Nat) (s : State) : Word :=
  match fieldOf reg hi lo with
  | none => 0
  | some f => extractBits f.hi f.lo (readReg f.reg s)

/-- `PWR_CODE(LVL)`, the power table (43_output_and_status.md R182): any other level has no code. -/
def powerCode (level : Int) : Option Nat :=
  if level = -4 then some 0
  else if level = -1 then some 1
  else if level = 2 then some 2
  else if level = 5 then some 3
  else none

end Sys2Proof.Machine
end

