-- ==== Sys2Proof/Machine/FieldAccess.lean ====
section
/-! DEFINITION. The field commands: SETF and GETF (spec/41_field_access.md R130 to R136). -/

namespace Sys2Proof.Machine

/-- SETF (R130). -/
def execSetf (reg hi lo : BitVec 8) (value : Word) (s : State) : Result :=
  unlessUninit (Instr.setf reg hi lo value).header s
    (.next (setField reg.toNat hi.toNat lo.toNat value.toNat s))

/-- GETF (R135). -/
def execGetf (reg hi lo : BitVec 8) (s : State) : Result :=
  unlessUninit (Instr.getf reg hi lo).header s
    (.next (respond [getField reg.toNat hi.toNat lo.toNat s] s))

end Sys2Proof.Machine
end

