-- ==== Sys2Proof/Machine/Sequencer.lean ====
section
/-! DEFINITION. The write-back sequencer (spec/42_writeback.md R152 to R159): each phase's action once, the passes as the spec's
pseudocode has them, and the same passes one phase at a time (R162, spec/10_state.md R25). -/

namespace Sys2Proof.Machine

/-- `Emit(WRITE(regs[i]))`: the whole shadow word, tag included (10_state.md R40). -/
def sendReg (i : Fin 7) (s : State) : State := emit (.write (readReg i s)) s

/-- The register-4 word of the cold start, both output enables cleared (42_writeback.md R154). -/
def maskedReg4 (s : State) : Word := readReg 4 s &&& ~~~(0x00000120 : Word)

/-- The cold start's register-4 step: the masked word is sent and its DIVA remembered; the shadow word stays (R153, R154). -/
def sendMaskedReg4 (s : State) : State :=
  { emit (.write (maskedReg4 s)) s with lastDiva := divaOf (maskedReg4 s) }

/-- One register's turn in the steady pass: a dirty register is sent, a sent register 4 has its DIVA remembered, and the dirty bit
is cleared right after the send (R158). -/
def steadyTurn (i : Fin 7) (s : State) : State :=
  if isDirty i s then
    let sent := sendReg i s
    clearDirty i (if i = 4 then { sent with lastDiva := divaOf (readReg 4 s) } else sent)
  else s

/-- What the sequencer does in a phase (R153, R158). -/
def phaseAction (p : SeqPhase) (s : State) : State :=
  match p with
  | .idle => s
  | .csR5 => sendReg 5 s
  | .csDelay => emit (.delay s.cfg.settleMs) s
  | .csR4 => sendMaskedReg4 s
  | .csR3 => sendReg 3 s
  | .csR2 => sendReg 2 s
  | .csR1 => sendReg 1 s
  | .csR0 => sendReg 0 s
  | .wb i => steadyTurn i s

/-- Enter a phase and do its action. -/
def runPhase (s : State) (p : SeqPhase) : State := phaseAction p { s with seq := p }

/-- The phases of the cold-start pass, in order (R153). -/
def coldPhases : List SeqPhase := [.csR5, .csDelay, .csR4, .csR3, .csR2, .csR1, .csR0]

/-- The phases of the steady pass, in order (R158). -/
def steadyPhases : List SeqPhase := [.wb 6, .wb 5, .wb 4, .wb 3, .wb 2, .wb 1, .wb 0]

/-- The end of the cold-start pass (R155). -/
def endCold (s : State) : State := { setAllDirty s with mode := .steady }

/-- `ColdPass()` (R153). -/
def coldPass (s : State) : State := endCold (coldPhases.foldl runPhase s)

/-- `SteadyPass()` (R158). -/
def steadyPass (s : State) : State := steadyPhases.foldl runPhase s

/-- `WriteBack()` (R152). -/
def writeBack (s : State) : State :=
  let warm := if s.mode = .cold then coldPass s else s
  { steadyPass (couple warm) with seq := .idle }

/-- Enter the first phase of a write-back (R152), for running it one phase at a time. -/
def beginWriteBack (s : State) : State :=
  if s.mode = .cold then { s with seq := .csR5 } else { couple s with seq := .wb 6 }

/-- Leave the current phase for the next one: after the cold-start pass come its end and the coupling step, after register 0 of
the steady pass the end of the write-back (R152, R153, R158). -/
def leavePhase (s : State) : State :=
  match s.seq with
  | .idle => s
  | .csR5 => { s with seq := .csDelay }
  | .csDelay => { s with seq := .csR4 }
  | .csR4 => { s with seq := .csR3 }
  | .csR3 => { s with seq := .csR2 }
  | .csR2 => { s with seq := .csR1 }
  | .csR1 => { s with seq := .csR0 }
  | .csR0 => { couple (endCold s) with seq := .wb 6 }
  | .wb i => if i = 0 then { s with seq := .idle } else { s with seq := .wb (i - 1) }

/-- One phase of a write-back in progress: its action, then the next phase (10_state.md R25, 42_writeback.md R162). -/
def sequencerStep (s : State) : State := leavePhase (phaseAction s.seq s)

end Sys2Proof.Machine
end

