-- ==== Sys2Proof/Machine/Output.lean ====
section
/-! DEFINITION. Output control, set-frequency and lock status: OUTSEL, OUTPWR, SETFREQ and LOCKQ
(spec/43_output_and_status.md R180 to R190). -/

namespace Sys2Proof.Machine

/-- OUTSEL's two field writes: RFA_EN is register 4 bit 5 and RFB_EN bit 8 (R180). -/
def selectOutputs (ena enb : BitVec 1) (s : State) : State :=
  setField 4 8 8 enb.toNat (setField 4 5 5 ena.toNat s)

/-- OUTSEL (R180, R181): the write-back always runs. -/
def execOutsel (ena enb : BitVec 1) (s : State) : Result :=
  unlessUninit (Instr.outsel ena enb).header s (.next (writeBack (selectOutputs ena enb s)))

/-- OUTPWR's field writes: port A's code is bits [4:3] and port B's bits [7:6] of register 4; PORT 2 names both (R183). -/
def setPowerFields (code : Nat) (port : BitVec 2) (s : State) : State :=
  let a := if port = 0 ∨ port = 2 then setField 4 4 3 code s else s
  if port = 1 ∨ port = 2 then setField 4 7 6 code a else a

/-- OUTPWR (R183, R184): a level outside the table, or PORT 3, does nothing. -/
def execOutpwr (level : BitVec 8) (port : BitVec 2) (s : State) : Result :=
  unlessUninit (Instr.outpwr level port).header s <|
    match powerCode level.toInt with
    | none => .next s
    | some code => if port = 3 then .next s else .next (writeBack (setPowerFields code port s))

/-- SETFREQ's four field writes (R186); values too wide for a field are truncated (R187). -/
def programDividers (d : DividerState) (s : State) : State :=
  setField 4 22 20 d.diva (setField 1 14 3 d.modulus (setField 0 14 3 d.frac (setField 0 30 15 d.n s)))

/-- SETFREQ (R186): F_UNINIT first, then F_SOLVE_DOMAIN (60_exceptions.md R207). -/
def execSetfreq (targetHz refHz : BitVec 64) (s : State) : Result :=
  unlessUninit (Instr.setfreq targetHz refHz).header s <|
    if targetHz = 0 ∨ refHz = 0 then raise .solveDomain (Instr.setfreq targetHz refHz).header s
    else .next (writeBack (programDividers (solve targetHz.toNat refHz.toNat) s))

/-- LOCKQ (R190): bit 0 is the sample, and it is accepted in every mode. -/
def execLockq (s : State) : Result :=
  .next (respond [(BitVec.ofBool (sampleLD s).1).setWidth 32] (sampleLD s).2)

end Sys2Proof.Machine
end

