-- ==== Sys2Proof/Machine/WriteBack.lean ====
section
/-! DEFINITION. The commands of the sequencer: RESET and FLUSH (spec/42_writeback.md R150, R151). -/

namespace Sys2Proof.Machine

/-- RESET's register and mode writes, before its write-back (R150). -/
def loadDefaults (s : State) : State := { setAllDirty s with regs := s.cfg.defaultImage, mode := .cold }

/-- RESET (R150): accepted in every mode. -/
def execReset (s : State) : Result := .next (writeBack (loadDefaults s))

/-- FLUSH (R151). -/
def execFlush (s : State) : Result := unlessUninit Instr.flush.header s (.next (writeBack s))

end Sys2Proof.Machine
end

