-- ==== Sys2Proof/Machine/Dispatch.lean ====
section
/-! DEFINITION. One arm per command: its meaning (spec/30_encoding.md R78). -/

namespace Sys2Proof.Machine

def exec (i : Instr) (s : State) : Host.Outcome State Fault Refusal :=
  match i with
  | .solve targetHz refHz => Sys2Proof.Machine.execSolve targetHz refHz s
  | .proj n frac modulus diva refHz => Sys2Proof.Machine.execProj n frac modulus diva refHz s
  | .reset => Sys2Proof.Machine.execReset s
  | .setf reg hi lo value => Sys2Proof.Machine.execSetf reg hi lo value s
  | .getf reg hi lo => Sys2Proof.Machine.execGetf reg hi lo s
  | .flush => Sys2Proof.Machine.execFlush s
  | .outsel ena enb => Sys2Proof.Machine.execOutsel ena enb s
  | .outpwr level port => Sys2Proof.Machine.execOutpwr level port s
  | .setfreq targetHz refHz => Sys2Proof.Machine.execSetfreq targetHz refHz s
  | .lockq => Sys2Proof.Machine.execLockq s

end Sys2Proof.Machine
end

