-- ==== Sys2Proof/Machine/Port.lean ====
section
/-! DEFINITION. The command port and the power-on reset input (spec/10_state.md R43, R45): taking a command off the port, running
it, and the reset that lands between commands or inside one (spec/70_reset_and_hazards.md R220, R221). -/

namespace Sys2Proof.Machine

/-- The words now offered on the command port: those before the next assertion of the power-on reset input. -/
def offeredWords : List HostInput → List Word
  | .word w :: rest => w :: offeredWords rest
  | .powerOn :: _ | .powerOnDuring _ :: _ | [] => []

/-- What the host does after its next assertion of the power-on reset input, if there is one: a reset starts a new run
(60_exceptions.md R209), and words offered before it are gone (log entry 7). -/
def afterPowerOn : List HostInput → Option (List HostInput)
  | .word _ :: rest => afterPowerOn rest
  | .powerOn :: rest | .powerOnDuring _ :: rest => some rest
  | [] => none

/-- The port accepts a header only while `seq = IDLE` and `fault = NONE` (10_state.md R43). -/
def portReady (s : State) : Bool := decide (s.seq = .idle) && decide (s.fault = none)

/-- A power-on reset that lands inside the command that took `s` to `t`, after `k` of the command's events
(70_reset_and_hazards.md R221): those events stay, the command gives no response, and the power-on state follows. -/
def abandon (k : Nat) (rest : List HostInput) (s t : State) : State :=
  powerOn rest { s with events := t.events.take (s.events.length + k) }

/-- Run a command whose words have been taken; a power-on reset inside it abandons it. -/
def perform (i : Instr) (s : State) : Result :=
  match exec i s with
  | .next t =>
    match t.inbox with
    | .powerOnDuring k :: rest => .next (abandon k rest s t)
    | .powerOn :: _ | .word _ :: _ | [] => .next t
  | .fault r => .fault r
  | .refused r => .refused r

/-- The block waits for words: nothing changes, unless a power-on reset is what comes next. -/
def await (s : State) : Result :=
  match afterPowerOn s.inbox with
  | some rest => .next (powerOn rest s)
  | none => .next s

/-- A ready port takes what is offered: an illegal header faults at once (30_encoding.md R79), a whole command runs, and a command
whose words have not all come is waited for (70_reset_and_hazards.md R230). -/
def takeCommand (s : State) : Result :=
  match decode (offeredWords s.inbox) with
  | .illegal h => raise .illegal h { s with inbox := s.inbox.drop 1 }
  | .command i _ => perform i { s with inbox := s.inbox.drop (commandLength i) }
  | .incomplete => await s

/-- A faulted block takes no command and emits nothing; only a power-on reset leads out (60_exceptions.md R200, R209). -/
def stayFaulted (r : FaultRecord) (s : State) : Result :=
  match afterPowerOn s.inbox with
  | some rest => .next (powerOn rest s)
  | none => .fault (.stopped r)

/-- One step of the block: a power-on reset where it is asserted next; else a faulted block stays faulted, a write-back in
progress does its next phase, and an idle block takes a command. -/
def stepPort (s : State) : Result :=
  match s.inbox with
  | .powerOn :: rest | .powerOnDuring _ :: rest => .next (powerOn rest s)
  | .word _ :: _ | [] =>
    match s.fault with
    | some r => stayFaulted r s
    | none => if s.seq = .idle then takeCommand s else .next (sequencerStep s)

/-- The words of the command whose lowest `nbits` bits are `w`, as many as its header asks for; an illegal header alone. -/
def commandWords (nbits w : Nat) : List Word :=
  match decode (tableWords nbits w) with
  | .command i _ => (tableWords nbits w).take (commandLength i)
  | .illegal h => [h]
  | .incomplete => tableWords nbits w

/-- The state with that command, and nothing else, offered on a ready port (log entry 4). -/
def placeCommand (nbits w : Nat) (s : State) : State :=
  { s with seq := .idle, fault := none, inbox := (commandWords nbits w).map .word }

end Sys2Proof.Machine
end

