-- ==== Sys2Proof/Machine/Step.lean ====
section
/-! DEFINITION. One step of the machine. It ends in a next state, in the fault `stopped`, or (for an arm of exec without a meaning;
there is none) in a refusal. -/

namespace Sys2Proof.Machine

/-- One step: what the command port and the power-on reset input make of the state (spec/10_state.md R43, R45). -/
def step (s : State) : Host.Outcome State Fault Refusal := stepPort s

/-- `s` with the command whose lowest `nbits` bits are `w` as the next one `step` takes. -/
def State.withFetchWord (s : State) (nbits w : Nat) : State := placeCommand nbits w s

end Sys2Proof.Machine
end

