-- ==== Sys2Proof/WellFormed.lean ====
section
/-! DEFINITION. The assembler's lines (spec/30_encoding.md R82, R83) and the check the spec makes of them: "The assembler refuses
a line whose operand does not fit its field". A term of `Instr` needs no check of its own: its operand types are the fields. -/

namespace Sys2Proof

/-- One line of assembler text after its numbers are read: the ten commands (R82) and the six pseudo-commands (R83). Operands
are numbers of any size, as written; only OUTPWR's level may be negative. -/
inductive AsmLine where
  | reset
  | flush
  | setf (reg hi lo value : Nat)
  | getf (reg hi lo : Nat)
  | outsel (ena enb : Nat)
  | outpwr (level : Int) (port : BitVec 2)
  | lockq
  | solve (targetHz refHz : Nat)
  | proj (n frac modulus diva refHz : Nat)
  | setfreq (targetHz refHz : Nat)
  | setn (n : Nat)
  | setfrac (f : Nat)
  | setmod (m : Nat)
  | setdiva (d : Nat)
  | outoff
  | outboth
  deriving DecidableEq, Repr

/-- Every operand of the line fits its field (R82), the fields being those of R72 to R76; a pseudo-command's operand is a
VALUE word (R83). -/
def AsmLine.wellFormed : AsmLine → Bool
  | .reset | .flush | .lockq | .outoff | .outboth => true
  | .setf reg hi lo value => reg < 2 ^ 8 && hi < 2 ^ 8 && lo < 2 ^ 8 && value < 2 ^ 32
  | .getf reg hi lo => reg < 2 ^ 8 && hi < 2 ^ 8 && lo < 2 ^ 8
  | .outsel ena enb => ena < 2 && enb < 2
  | .outpwr level _ => decide (-128 ≤ level) && decide (level ≤ 127)
  | .solve targetHz refHz => targetHz < 2 ^ 64 && refHz < 2 ^ 64
  | .proj n frac modulus diva refHz =>
    n < 2 ^ 32 && frac < 2 ^ 16 && modulus < 2 ^ 16 && diva < 2 ^ 8 && refHz < 2 ^ 64
  | .setfreq targetHz refHz => targetHz < 2 ^ 64 && refHz < 2 ^ 64
  | .setn v | .setfrac v | .setmod v | .setdiva v => v < 2 ^ 32

end Sys2Proof
end

