-- ==== Sys2Proof/Machine/Assembler.lean ====
section
/-! DEFINITION. The assembler of spec/30_encoding.md R82 and R83: from a line of text to the words of its command. It is the host's
tool, not the block's; the lexical points the spec leaves open are in log entry 9. -/

namespace Sys2Proof.Machine

/-- The command a line that fits stands for; a pseudo-command stands for its expansion (R83). -/
def lineInstr : AsmLine → Instr
  | .reset => .reset
  | .flush => .flush
  | .setf reg hi lo value => .setf (.ofNat 8 reg) (.ofNat 8 hi) (.ofNat 8 lo) (.ofNat 32 value)
  | .getf reg hi lo => .getf (.ofNat 8 reg) (.ofNat 8 hi) (.ofNat 8 lo)
  | .outsel ena enb => .outsel (.ofNat 1 ena) (.ofNat 1 enb)
  | .outpwr level port => .outpwr (.ofInt 8 level) port
  | .lockq => .lockq
  | .solve targetHz refHz => .solve (.ofNat 64 targetHz) (.ofNat 64 refHz)
  | .proj n frac modulus diva refHz =>
    .proj (.ofNat 32 n) (.ofNat 16 frac) (.ofNat 16 modulus) (.ofNat 8 diva) (.ofNat 64 refHz)
  | .setfreq targetHz refHz => .setfreq (.ofNat 64 targetHz) (.ofNat 64 refHz)
  | .setn n => .setf 0 30 15 (.ofNat 32 n)
  | .setfrac f => .setf 0 14 3 (.ofNat 32 f)
  | .setmod m => .setf 1 14 3 (.ofNat 32 m)
  | .setdiva d => .setf 4 22 20 (.ofNat 32 d)
  | .outoff => .outsel 0 0
  | .outboth => .outsel 1 1

/-- The words of a line, or none where an operand does not fit its field (R82). -/
def assembleLine (l : AsmLine) : Option (List Word) :=
  if l.wellFormed then some (encode (lineInstr l)) else none

/-- Blank space inside a line. -/
def isBlank (c : Char) : Bool := c == ' ' || c == '\t'

/-- The text without blanks at its ends. -/
def trimBlanks (cs : List Char) : List Char :=
  ((cs.dropWhile isBlank).reverse.dropWhile isBlank).reverse

/-- The pieces of a text between its commas. -/
def splitCommas (cs : List Char) : List (List Char) :=
  cs.foldr
    (fun c acc =>
      match acc with
      | piece :: more => if c == ',' then [] :: piece :: more else (c :: piece) :: more
      | [] => [[c]])
    [[]]

/-- The value of a digit: 0 to 9, then a to f in either case. -/
def digitValue (c : Char) : Option Nat :=
  if '0' ≤ c ∧ c ≤ '9' then some (c.toNat - 48)
  else if 'a' ≤ c ∧ c ≤ 'f' then some (c.toNat - 87)
  else if 'A' ≤ c ∧ c ≤ 'F' then some (c.toNat - 55)
  else none

/-- A non-empty run of digits below the base, read from the left after the value `acc`. -/
def readDigits (base acc : Nat) : List Char → Option Nat
  | [] => none
  | [c] => (digitValue c).bind fun d => if d < base then some (acc * base + d) else none
  | c :: rest => (digitValue c).bind fun d => if d < base then readDigits base (acc * base + d) rest else none

/-- A number: `0x` hexadecimal, `0b` binary, else decimal (R82). -/
def readNumber : List Char → Option Nat
  | '0' :: 'x' :: ds => readDigits 16 0 ds
  | '0' :: 'b' :: ds => readDigits 2 0 ds
  | ds => readDigits 10 0 ds

/-- OUTPWR's level: a number that alone may have a leading `-` (R82), or the `+` of the examples (R84). -/
def readLevel : List Char → Option Int
  | '-' :: ds => (readNumber ds).map fun n => -(n : Int)
  | '+' :: ds => (readNumber ds).map fun n => (n : Int)
  | ds => (readNumber ds).map fun n => (n : Int)

/-- A register, written `r<n>` (R82). DESIGN CHOICE (log entry 9): `n` is decimal digits only, so `r0x4` and `r0b1` are refused; R82
does not say in which base `n` is written. -/
def readRegister : List Char → Option Nat
  | 'r' :: ds => readDigits 10 0 ds
  | _ => none

/-- OUTPWR's port: A, B, ALL, or NONE for PORT = 3 (R82, R74). -/
def readPort (cs : List Char) : Option (BitVec 2) :=
  if cs == "A".toList then some 0
  else if cs == "B".toList then some 1
  else if cs == "ALL".toList then some 2
  else if cs == "NONE".toList then some 3
  else none

/-- The command of a name and its operand texts (R82, R83). -/
def readCommand (name : List Char) (ops : List (List Char)) : Option AsmLine :=
  match ops with
  | [] =>
    if name == "RESET".toList then some .reset
    else if name == "FLUSH".toList then some .flush
    else if name == "LOCKQ".toList then some .lockq
    else if name == "OUTOFF".toList then some .outoff
    else if name == "OUTBOTH".toList then some .outboth
    else none
  | [a] =>
    if name == "SETN".toList then (readNumber a).map .setn
    else if name == "SETFRAC".toList then (readNumber a).map .setfrac
    else if name == "SETMOD".toList then (readNumber a).map .setmod
    else if name == "SETDIVA".toList then (readNumber a).map .setdiva
    else none
  | [a, b] =>
    if name == "OUTSEL".toList then do return .outsel (← readNumber a) (← readNumber b)
    else if name == "OUTPWR".toList then do return .outpwr (← readLevel a) (← readPort b)
    else if name == "SOLVE".toList then do return .solve (← readNumber a) (← readNumber b)
    else if name == "SETFREQ".toList then do return .setfreq (← readNumber a) (← readNumber b)
    else none
  | [a, b, c] =>
    if name == "GETF".toList then do return .getf (← readRegister a) (← readNumber b) (← readNumber c)
    else none
  | [a, b, c, d] =>
    if name == "SETF".toList then do
      return .setf (← readRegister a) (← readNumber b) (← readNumber c) (← readNumber d)
    else none
  | [a, b, c, d, e] =>
    if name == "PROJ".toList then do
      return .proj (← readNumber a) (← readNumber b) (← readNumber c) (← readNumber d) (← readNumber e)
    else none
  | _ => none

/-- One line of text (R82): `;` starts a comment; `some none` is a line without a command, `none` a refused one. -/
def readLine (text : List Char) : Option (Option AsmLine) :=
  let line := trimBlanks (text.takeWhile (· != ';'))
  if line.isEmpty then some none
  else
    let name := line.takeWhile (fun c => !isBlank c)
    let rest := trimBlanks (line.drop name.length)
    let ops := if rest.isEmpty then [] else (splitCommas rest).map trimBlanks
    (readCommand name ops).map some

/-- The words of one line of text; none where the assembler refuses it. -/
def assembleText (text : List Char) : Option (List Word) :=
  (readLine text).bind fun l =>
    match l with
    | none => some []
    | some l => assembleLine l

/-- The words of a text of one command per line (R82). DESIGN CHOICE (log entry 9): one refused line refuses the whole text; R82 says
of the refused line only, and not what becomes of the other lines. -/
def assembleLines (lines : List (List Char)) : Option (List Word) :=
  (lines.mapM assembleText).map List.flatten

end Sys2Proof.Machine
end

