-- ==== Sys2Proof/Safety.lean ====
section
/-! DEFINITION. The terms claims are stated in: runs without a fault, the invariants of the block between commands, what the chip was
last sent, and the premise on a solved frequency. -/

namespace Sys2Proof.Machine

/-- No fault is recorded: the premise of a good run (spec/00_scope.md R10, 60_exceptions.md R200). -/
def NoFault (s : State) : Prop := s.fault = none

/-- A finished run (70_reset_and_hazards.md R233): nothing more is offered, the sequencer is idle and no fault is recorded. -/
def Finished (s : State) : Prop := s.inbox = [] ∧ s.seq = .idle ∧ NoFault s

/-- The opcode field of a header (30_encoding.md R70). -/
def opcodeOf (h : Word) : Nat := (h.extractLsb' 0 8).toNat

/-- A header that spells no command, in the words of 30_encoding.md R79: "its opcode is not in the table (0x00, 0x08 to 0x0F,
0x13 to 0xFF)", or its opcode is and a bit that its format reserves (R71 to R76) is 1. -/
abbrev HeaderIllegal (h : Word) : Prop :=
  opcodeOf h = 0x00 ∨ (0x08 ≤ opcodeOf h ∧ opcodeOf h ≤ 0x0F) ∨ 0x13 ≤ opcodeOf h ∨
    ((opcodeOf h = 0x01 ∨ opcodeOf h = 0x02 ∨ opcodeOf h = 0x07 ∨ opcodeOf h = 0x10 ∨ opcodeOf h = 0x12) ∧
      h.extractLsb' 8 24 ≠ 0) ∨
    (opcodeOf h = 0x05 ∧ h.extractLsb' 10 22 ≠ 0) ∨
    (opcodeOf h = 0x06 ∧ h.extractLsb' 18 14 ≠ 0) ∨
    (opcodeOf h = 0x11 ∧ h.extractLsb' 16 16 ≠ 0)

/-- The fault a legal command raises in a mode, as `(code, H)`, if any: the causes of 60_exceptions.md R201 in the order of R207. -/
def faultOf (i : Instr) (m : Mode) : Option (Nat × Word) :=
  if m = .uninit ∧ i.op ∈ [.setf, .getf, .flush, .outsel, .outpwr, .setfreq] then some (2, i.header)
  else
    match i with
    | .solve targetHz refHz | .setfreq targetHz refHz => if targetHz = 0 ∨ refHz = 0 then some (3, i.header) else none
    | .proj _ _ modulus _ refHz => if modulus = 0 ∨ refHz = 0 then some (4, i.header) else none
    | .reset | .setf .. | .getf .. | .flush | .outsel .. | .outpwr .. | .lockq => none

/-- The address tag of a word, bits [2:0] (10_state.md R22). -/
def tagOf (w : Word) : BitVec 3 := w.extractLsb' 0 3

/-- Every shadow word carries its own index as its tag (10_state.md R22). -/
def TagsHeld (s : State) : Prop := ∀ i : Fin 7, tagOf (readReg i s) = BitVec.ofNat 3 i

/-- Between two commands the sequencer is idle and the mode is not COLD (10_state.md R24, R25). -/
def BetweenCommands (s : State) : Prop := s.seq = .idle ∧ s.mode ≠ .cold

/-- The last word among the events whose tag selects chip register `i` (10_state.md R40, 20_memory.md R59). -/
def lastSentWord (i : Fin 7) : List Event → Option Word
  | [] => none
  | .write w :: rest => (lastSentWord i rest).orElse fun _ => if tagOf w = BitVec.ofNat 3 i then some w else none
  | .delay _ :: rest => lastSentWord i rest

/-- In mode STEADY, a register whose dirty bit is clear is what the chip was last sent for it (10_state.md R23, 20_memory.md R65). -/
def CleanIsSent (s : State) : Prop :=
  s.mode = .steady → ∀ i : Fin 7, isDirty i s = false → lastSentWord i s.events = some (readReg i s)

/-- In mode STEADY, `lastDiva` is the DIVA field of the last register-4 word sent (10_state.md R26). -/
def DivaRemembered (s : State) : Prop :=
  s.mode = .steady → (lastSentWord 4 s.events).map divaOf = some s.lastDiva

/-- In mode UNINIT the controller still holds its power-on values (10_state.md R46, R24, 60_exceptions.md R204). -/
def UninitUntouched (s : State) : Prop :=
  s.mode = .uninit → s.regs = s.cfg.defaultImage ∧ s.dirty = 0b1111111 ∧ s.lastDiva = 0

/-- Power-on reset as 70_reset_and_hazards.md R220 lists it, with `rest` what the host does next. -/
def poweredOn (rest : List HostInput) (s : State) : State :=
  { s with
    regs := s.cfg.defaultImage, dirty := 0b1111111, mode := .uninit, seq := .idle, lastDiva := 0, fault := none,
    inbox := rest }

/-- The registers a write-back in mode STEADY sends, in its order (42_writeback.md R157, R158): each dirty one, and register 0 too
where a dirty register 1 forces it, or a dirty register 4 under `UNCONDITIONAL` or with its DIVA changed. -/
def sentByFlush (s : State) : List (Fin 7) :=
  [6, 5, 4, 3, 2, 1, 0].filter fun i =>
    isDirty i s || (i == 0 && (isDirty 1 s ||
      (isDirty 4 s && (s.cfg.coupling == .unconditional || divaOf (readReg 4 s) != s.lastDiva))))

/-- What a write-back in mode STEADY leaves, in closed form (42_writeback.md R151, R158): those registers sent whole, every
dirty bit clear, and a sent register 4's DIVA remembered. -/
def afterFlush (s : State) : State :=
  { s with
    dirty := 0
    seq := .idle
    lastDiva := if isDirty 4 s then divaOf (readReg 4 s) else s.lastDiva
    events := s.events ++ (sentByFlush s).map fun i => .write (readReg i s) }

/-- Register `i` given the word `w`, its dirty bit set where that changes it (41_field_access.md R130, R134). -/
def withReg (i : Fin 7) (w : Word) (s : State) : State :=
  if w = readReg i s then s else { s with regs := s.regs.set i w, dirty := s.dirty ||| BitVec.twoPow 7 i }

/-- A solved frequency fits the register fields: the premise `SolverInRange` of 40_solver.md R109, "for SOLVE's result". DESIGN CHOICE
(log entry 16): where an operand is 0 SOLVE faults and has no result, and the premise fails there; R109 does not say what it is. -/
def SolverInRange (targetHz refHz : Nat) : Prop :=
  targetHz ≠ 0 ∧ refHz ≠ 0 ∧ (solve targetHz refHz).diva ≤ 7 ∧ (solve targetHz refHz).n < 2 ^ 16

/-- The VCO frequency of a divider state in hertz, `Fpfd * (N + Frac/M)` (00_scope.md R15, 40_solver.md R110). -/
def vcoHz (d : DividerState) : Rat := d.fpfd * (d.n + (d.frac : Rat) / d.modulus)

/-- The output frequency of divider values, `fout` of 40_solver.md R110. -/
def outputHz (n frac modulus diva refHz : Nat) : Rat :=
  refHz * (n + (frac : Rat) / modulus) / 2 ^ diva

/-- The bits [31:0] of `w` outside the field [hi:lo] are those of `old`, and inside it those of `value` (41_field_access.md R133). -/
def FieldReplaced (hi lo : Nat) (value : Nat) (old w : Word) : Prop :=
  ∀ j < 32, w.getLsbD j = if lo ≤ j ∧ j ≤ hi then value.testBit (j - lo) else old.getLsbD j

end Sys2Proof.Machine
end

