-- ==== Sys2Proof/Certificates/Slice0/Obligations.lean ====
section
/-! DEFINITION. The statements for the provers, from the numbered rules of spec/. Each docstring names the rules it formalises. -/

open Sys2Proof Sys2Proof.Machine

/-! ### Command encoding (spec/30_encoding.md) -/

/-- Formats R71 to R76 and decoding R77, R79, R81: the words of a command, whatever follows them, decode to it, with every operand
at every value its field admits. -/
def Obligations.DecodeReadsEveryEncodedCommand : Prop :=
  ∀ (i : Instr) (rest : List Word), decode (encode i ++ rest) = .command i rest

/-- The other direction: words that decode to a command are its encoding, so each command has one spelling and no bit of a header
or operand word is dropped. -/
def Obligations.DecodedWordsAreTheEncoding : Prop :=
  ∀ (ws : List Word) (i : Instr) (rest : List Word), decode ws = .command i rest → encode i ++ rest = ws

/-- R79: decoding is total; the illegal headers are exactly those with an opcode outside the table or a reserved bit set, and on a
ready port one raises F_ILLEGAL with the header recorded and no operand word taken. -/
def Obligations.IllegalHeadersFaultAtDecode : Prop :=
  (∀ (h : Word) (ws : List Word), decode (h :: ws) = .illegal h ↔ HeaderIllegal h) ∧
  ∀ (s : State) (h : Word) (more : List HostInput),
    s.seq = .idle → s.fault = none → s.inbox = .word h :: more → HeaderIllegal h →
      step s = .next { s with fault := some { code := .illegal, header := h }, inbox := more }

/-- R78: "No two rows select the same header". -/
def Obligations.OpcodeRowsSelectDisjointHeaders : Prop :=
  ∀ (h : Word) (r r' : Op), h &&& opMask r = opMatch r → h &&& opMask r' = opMatch r' → r = r'

/-- R84: the twelve examples, from text to words, and the words of each decode to the command meant. -/
def Obligations.SpecExamplesAssembleAndDecode : Prop :=
  assembleText "RESET".toList = some [0x00000001] ∧
  assembleText "FLUSH".toList = some [0x00000002] ∧
  assembleText "SETF r4, 22, 20, 5".toList = some [0x14160403, 0x00000005] ∧
  assembleText "SETF r6, 31, 3, 0x123".toList = some [0x031F0603, 0x00000123] ∧
  assembleText "GETF r0, 30, 15".toList = some [0x0F1E0004] ∧
  assembleText "OUTSEL 1, 0".toList = some [0x00000105] ∧
  assembleText "OUTPWR +5, ALL".toList = some [0x00020506] ∧
  assembleText "OUTPWR -4, A".toList = some [0x0000FC06] ∧
  assembleText "LOCKQ".toList = some [0x00000007] ∧
  assembleText "SOLVE 2970000000, 66000000".toList =
    some [0x00000010, 0xB1069A80, 0x00000000, 0x03EF1480, 0x00000000] ∧
  assembleText "SETFREQ 6000000000, 66000000".toList =
    some [0x00000012, 0x65A0BC00, 0x00000001, 0x03EF1480, 0x00000000] ∧
  assembleText "PROJ 90, 0, 4095, 1, 66000000".toList =
    some [0x00000111, 0x0000005A, 0x0FFF0000, 0x03EF1480, 0x00000000] ∧
  decode [0x00000001] = .command .reset [] ∧
  decode [0x00000002] = .command .flush [] ∧
  decode [0x14160403, 0x00000005] = .command (.setf 4 22 20 5) [] ∧
  decode [0x031F0603, 0x00000123] = .command (.setf 6 31 3 0x123) [] ∧
  decode [0x0F1E0004] = .command (.getf 0 30 15) [] ∧
  decode [0x00000105] = .command (.outsel 1 0) [] ∧
  decode [0x00020506] = .command (.outpwr 5 2) [] ∧
  decode [0x0000FC06] = .command (.outpwr 0xFC 0) [] ∧
  decode [0x00000007] = .command .lockq [] ∧
  decode [0x00000010, 0xB1069A80, 0x00000000, 0x03EF1480, 0x00000000] = .command (.solve 2970000000 66000000) [] ∧
  decode [0x00000012, 0x65A0BC00, 0x00000001, 0x03EF1480, 0x00000000] = .command (.setfreq 6000000000 66000000) [] ∧
  decode [0x00000111, 0x0000005A, 0x0FFF0000, 0x03EF1480, 0x00000000] = .command (.proj 90 0 4095 1 66000000) []

/-- R82: the assembler refuses a line exactly where an operand is outside its field of R72 to R76 (a pseudo-command's operand: of a
VALUE word, R83), for every form of line; and a line it takes becomes the words of the command with those operands. -/
def Obligations.AssemblerRefusesWhatDoesNotFit : Prop :=
  (∀ reg hi lo value : Nat,
    (assembleLine (.setf reg hi lo value) = none ↔ 256 ≤ reg ∨ 256 ≤ hi ∨ 256 ≤ lo ∨ 2 ^ 32 ≤ value) ∧
    (assembleLine (.setf reg hi lo value) ≠ none → ∃ (r h l : BitVec 8) (v : Word),
      assembleLine (.setf reg hi lo value) = some (encode (.setf r h l v)) ∧
      r.toNat = reg ∧ h.toNat = hi ∧ l.toNat = lo ∧ v.toNat = value)) ∧
  (∀ reg hi lo : Nat,
    (assembleLine (.getf reg hi lo) = none ↔ 256 ≤ reg ∨ 256 ≤ hi ∨ 256 ≤ lo) ∧
    (assembleLine (.getf reg hi lo) ≠ none → ∃ r h l : BitVec 8,
      assembleLine (.getf reg hi lo) = some (encode (.getf r h l)) ∧ r.toNat = reg ∧ h.toNat = hi ∧ l.toNat = lo)) ∧
  (∀ ena enb : Nat,
    (assembleLine (.outsel ena enb) = none ↔ 2 ≤ ena ∨ 2 ≤ enb) ∧
    (assembleLine (.outsel ena enb) ≠ none → ∃ a b : BitVec 1,
      assembleLine (.outsel ena enb) = some (encode (.outsel a b)) ∧ a.toNat = ena ∧ b.toNat = enb)) ∧
  (∀ (level : Int) (port : BitVec 2),
    (assembleLine (.outpwr level port) = none ↔ level < -128 ∨ 127 < level) ∧
    (assembleLine (.outpwr level port) ≠ none → ∃ b : BitVec 8,
      assembleLine (.outpwr level port) = some (encode (.outpwr b port)) ∧ b.toInt = level)) ∧
  (∀ targetHz refHz : Nat,
    (assembleLine (.solve targetHz refHz) = none ↔ 2 ^ 64 ≤ targetHz ∨ 2 ^ 64 ≤ refHz) ∧
    (assembleLine (.setfreq targetHz refHz) = none ↔ 2 ^ 64 ≤ targetHz ∨ 2 ^ 64 ≤ refHz) ∧
    (targetHz < 2 ^ 64 → refHz < 2 ^ 64 → ∃ t r : BitVec 64, t.toNat = targetHz ∧ r.toNat = refHz ∧
      assembleLine (.solve targetHz refHz) = some (encode (.solve t r)) ∧
      assembleLine (.setfreq targetHz refHz) = some (encode (.setfreq t r)))) ∧
  (∀ n frac modulus diva refHz : Nat,
    (assembleLine (.proj n frac modulus diva refHz) = none ↔
      2 ^ 32 ≤ n ∨ 2 ^ 16 ≤ frac ∨ 2 ^ 16 ≤ modulus ∨ 2 ^ 8 ≤ diva ∨ 2 ^ 64 ≤ refHz) ∧
    (assembleLine (.proj n frac modulus diva refHz) ≠ none →
      ∃ (w : Word) (f m : BitVec 16) (d : BitVec 8) (r : BitVec 64),
        assembleLine (.proj n frac modulus diva refHz) = some (encode (.proj w f m d r)) ∧
        w.toNat = n ∧ f.toNat = frac ∧ m.toNat = modulus ∧ d.toNat = diva ∧ r.toNat = refHz)) ∧
  (∀ n : Nat,
    (assembleLine (.setn n) = none ↔ 2 ^ 32 ≤ n) ∧ (assembleLine (.setfrac n) = none ↔ 2 ^ 32 ≤ n) ∧
    (assembleLine (.setmod n) = none ↔ 2 ^ 32 ≤ n) ∧ (assembleLine (.setdiva n) = none ↔ 2 ^ 32 ≤ n)) ∧
  assembleLine .reset = some (encode .reset) ∧ assembleLine .flush = some (encode .flush) ∧
  assembleLine .lockq = some (encode .lockq) ∧ assembleLine .outoff ≠ none ∧ assembleLine .outboth ≠ none

/-- R83: the six pseudo-commands and their expansions; a refused expansion is refused in both spellings. OUTOFF and OUTBOTH are the
OUTSEL of R83's table, which flushes, although R83 says "None of them flushes": that reading is the model's, log entry 14. -/
def Obligations.PseudoCommandsExpand : Prop :=
  (∀ n : Nat, assembleLine (.setn n) = assembleLine (.setf 0 30 15 n)) ∧
  (∀ n : Nat, assembleLine (.setfrac n) = assembleLine (.setf 0 14 3 n)) ∧
  (∀ n : Nat, assembleLine (.setmod n) = assembleLine (.setf 1 14 3 n)) ∧
  (∀ n : Nat, assembleLine (.setdiva n) = assembleLine (.setf 4 22 20 n)) ∧
  assembleLine .outoff = assembleLine (.outsel 0 0) ∧
  assembleLine .outboth = assembleLine (.outsel 1 1)

/-! ### The command port and the power-on reset input (spec/10_state.md R43, R45; spec/70_reset_and_hazards.md R220, R221) -/

/-- A step of a ready block runs the command it is offered: `step` is `exec` of the decoded command on the state with the command's
words taken off the port, where no power-on reset lands inside the command. That the operand words of a command that faults in exec
(F_UNINIT, a domain fault) are taken too is the model's choice, log entry 8. -/
def Obligations.StepRunsTheDecodedCommand : Prop :=
  ∀ (s : State) (i : Instr) (rest : List Word),
    s.seq = .idle → s.fault = none → decode (offeredWords s.inbox) = .command i rest →
    (∀ (k : Nat) (more : List HostInput), s.inbox.drop (commandLength i) ≠ .powerOnDuring k :: more) →
      step s = exec i { s with inbox := s.inbox.drop (commandLength i) }

/-- R221: a power-on reset inside a command abandons it. The events it had emitted stay, it gives no response, and the block
takes the power-on state; `k` is how many of its events came before the reset. -/
def Obligations.PowerOnResetInsideACommand : Prop :=
  ∀ (s t : State) (i : Instr) (rest : List Word) (k : Nat) (more : List HostInput) (es : List Event),
    s.seq = .idle → s.fault = none → decode (offeredWords s.inbox) = .command i rest →
    s.inbox.drop (commandLength i) = .powerOnDuring k :: more →
    exec i { s with inbox := s.inbox.drop (commandLength i) } = .next t → t.events = s.events ++ es →
      step s = .next { poweredOn more s with events := s.events ++ es.take k }

/-- R220: asserting the power-on reset input gives the power-on state from any state, faulted or busy too; nothing is emitted or
answered. `State.reset` has those values, and with nothing offered it stays as it is. -/
def Obligations.PowerOnResetFromAnyState : Prop :=
  (∀ (s : State) (more : List HostInput), s.inbox = .powerOn :: more →
    ∃ t : State, step s = .next t ∧ t.regs = s.cfg.defaultImage ∧ t.dirty = 0b1111111 ∧ t.mode = .uninit ∧ t.seq = .idle ∧
      t.lastDiva = 0 ∧ t.fault = none ∧ t.inbox = more ∧ t.events = s.events ∧ t.responses = s.responses ∧ t.cfg = s.cfg) ∧
  State.reset = poweredOn [] State.reset ∧ step State.reset = .next State.reset

/-- R200, R209: a block that holds a fault record takes no command and stops, whatever words are offered; a power-on reset offered
after them, and only that, leads out, to the power-on state. (That the words before it are gone is the model's choice, log
entry 7.) -/
def Obligations.FaultedBlockIsLeftOnlyByPowerOn : Prop :=
  ∀ (s : State) (r : FaultRecord) (ws : List Word), s.fault = some r →
    (s.inbox = ws.map .word → step s = .fault (.stopped r)) ∧
    (∀ more : List HostInput, s.inbox = ws.map .word ++ .powerOn :: more → step s = .next (poweredOn more s)) ∧
    (∀ (k : Nat) (more : List HostInput), s.inbox = ws.map .word ++ .powerOnDuring k :: more →
      step s = .next (poweredOn more s))

/-- R43: while a write-back is in progress the port takes no word; the step is one phase of the sequencer, with at most one
Transport event (R41). -/
def Obligations.BusyPortTakesNoWord : Prop :=
  ∀ s : State, s.seq ≠ .idle → s.fault = none →
    (∀ more : List HostInput, s.inbox ≠ .powerOn :: more) →
    (∀ (k : Nat) (more : List HostInput), s.inbox ≠ .powerOnDuring k :: more) →
      ∃ t : State, step s = .next t ∧ t = sequencerStep s ∧ t.inbox = s.inbox ∧ t.responses = s.responses ∧
        ∃ es : List Event, t.events = s.events ++ es ∧ es.length ≤ 1

/-- R230, R70: a ready block that has not been offered a whole command waits: nothing is taken and nothing changes. Two points of it
are the model's choice: that a header alone raises no F_UNINIT, even in UNINIT (log entry 8), and that waiting is a next state
(log entry 11). -/
def Obligations.ReadyBlockWaitsForAWholeCommand : Prop :=
  ∀ (s : State) (ws : List Word), s.seq = .idle → s.fault = none → s.inbox = ws.map .word → decode ws = .incomplete →
    step s = .next s

/-! ### Faults and whole-machine rules (spec/60_exceptions.md, spec/10_state.md) -/

/-- R204: in mode UNINIT the six controller commands raise F_UNINIT with their header recorded and change nothing else. -/
def Obligations.ControllerCommandsFaultBeforeReset : Prop :=
  ∀ (i : Instr) (s : State), s.mode = .uninit →
    (i.op = .setf ∨ i.op = .getf ∨ i.op = .flush ∨ i.op = .outsel ∨ i.op = .outpwr ∨ i.op = .setfreq) →
      exec i s = .next { s with fault := some { code := .uninit, header := i.header } }

/-- R203, R205 with R109, R111 and the priority of R207: the domain faults of SOLVE and PROJ in every mode, and SETFREQ's once a
RESET has been done. -/
def Obligations.DomainFaultsAreRecorded : Prop :=
  (∀ (targetHz refHz : BitVec 64) (s : State), targetHz = 0 ∨ refHz = 0 →
    exec (.solve targetHz refHz) s =
      .next { s with fault := some { code := .solveDomain, header := 0x00000010 } }) ∧
  (∀ (targetHz refHz : BitVec 64) (s : State), targetHz = 0 ∨ refHz = 0 → s.mode ≠ .uninit →
    exec (.setfreq targetHz refHz) s =
      .next { s with fault := some { code := .solveDomain, header := 0x00000012 } }) ∧
  ∀ (n : Word) (frac modulus : BitVec 16) (diva : BitVec 8) (refHz : BitVec 64) (s : State), modulus = 0 ∨ refHz = 0 →
    exec (.proj n frac modulus diva refHz) s =
      .next { s with fault := some { code := .projDomain, header := (Instr.proj n frac modulus diva refHz).header } }

/-- R200, R201, R208: every fault a command raises is precise (the state is that before the command, with the record added), it
is one of the three a legal command can raise, and it has exactly the cause R201 gives it. -/
def Obligations.CommandFaultsArePrecise : Prop :=
  ∀ (i : Instr) (s t : State) (r : FaultRecord), s.fault = none → exec i s = .next t → t.fault = some r →
    t = { s with fault := some r } ∧ r.header = i.header ∧
    ((r.code = .uninit ∧ s.mode = .uninit ∧
        (i.op = .setf ∨ i.op = .getf ∨ i.op = .flush ∨ i.op = .outsel ∨ i.op = .outpwr ∨ i.op = .setfreq)) ∨
      (r.code = .solveDomain ∧ ∃ targetHz refHz : BitVec 64, (targetHz = 0 ∨ refHz = 0) ∧
        (i = .solve targetHz refHz ∨ (i = .setfreq targetHz refHz ∧ s.mode ≠ .uninit))) ∨
      (r.code = .projDomain ∧ ∃ (n : Word) (frac modulus : BitVec 16) (diva : BitVec 8) (refHz : BitVec 64),
        i = .proj n frac modulus diva refHz ∧ (modulus = 0 ∨ refHz = 0)))

/-- Every command completes with a next state from every state (no command stops the model), and none touches the parameters, what
the host still offers, or what the run has already shown: events and responses only grow at their ends (R61), and an idle
sequencer is idle again (R25). -/
def Obligations.EveryCommandCompletesInPlace : Prop :=
  ∀ (i : Instr) (s : State), ∃ t : State, exec i s = .next t ∧ t.cfg = s.cfg ∧ t.inbox = s.inbox ∧
    s.events <+: t.events ∧ s.responses <+: t.responses ∧ (s.seq = .idle → t.seq = .idle)

/-- R201, R207: which fault a command raises, with the table's code and the header, in every mode: F_UNINIT (2) before a domain fault
(3 or 4), and no other; and an illegal header raises code 1 at decode. -/
def Obligations.FaultsFollowTheTable : Prop :=
  (∀ (i : Instr) (s : State), s.fault = none →
    ∃ t : State, exec i s = .next t ∧ t.fault.map faultPair = faultOf i s.mode) ∧
  ∀ (s : State) (h : Word) (more : List HostInput),
    s.seq = .idle → s.fault = none → s.inbox = .word h :: more → HeaderIllegal h →
      ∃ t : State, step s = .next t ∧ t.fault.map faultPair = some (1, h)

/-- R80 with R70: a command that raises no fault returns as many response words as its opcode fixes. -/
def Obligations.ResponseWordCountIsFixedByOpcode : Prop :=
  ∀ (i : Instr) (s t : State), s.fault = none → exec i s = .next t → t.fault = none →
    t.responses.length = s.responses.length + responseWords i.op

/-- R24, R150, R223: RESET is the only command that leaves UNINIT; before it no other command touches the controller, and nothing
is sent to the chip. -/
def Obligations.OnlyResetLeavesUninit : Prop :=
  ∀ (i : Instr) (s t : State), s.mode = .uninit → i ≠ .reset → exec i s = .next t →
    t.mode = .uninit ∧ t.regs = s.regs ∧ t.dirty = s.dirty ∧ t.lastDiva = s.lastDiva ∧ t.seq = s.seq ∧ t.events = s.events

/-- R22: no command except RESET writes an address tag, and RESET writes each register's own index. -/
def Obligations.OnlyResetWritesTheTags : Prop :=
  ∀ (i : Instr) (s t : State) (j : Fin 7), exec i s = .next t →
    tagOf (readReg j t) = if i = .reset then BitVec.ofNat 3 j else tagOf (readReg j s)

/-- R21, R187: which commands may change which shadow words: SETF the one its operand names, OUTSEL and OUTPWR register 4, SETFREQ
registers 0, 1 and 4, RESET all; the others none. -/
def Obligations.ShadowWordsChangeOnlyByTheirCommands : Prop :=
  ∀ (i : Instr) (s t : State) (j : Fin 7), exec i s = .next t → readReg j t ≠ readReg j s →
    i = .reset ∨ (∃ (reg hi lo : BitVec 8) (value : Word), i = .setf reg hi lo value ∧ reg.toNat = j) ∨
    (i.op = .outsel ∧ j = 4) ∨ (i.op = .outpwr ∧ j = 4) ∨ (i.op = .setfreq ∧ (j = 0 ∨ j = 1 ∨ j = 4))

/-- R152: the write-back is the only producer of events: SOLVE, PROJ, SETF, GETF and LOCKQ emit none, and RESET alone emits a
delay. -/
def Obligations.OnlyWriteBacksEmitEvents : Prop :=
  ∀ (i : Instr) (s t : State) (es : List Event), exec i s = .next t → t.events = s.events ++ es →
    ((i.op = .solve ∨ i.op = .proj ∨ i.op = .setf ∨ i.op = .getf ∨ i.op = .lockq) → es = []) ∧
    (s.mode ≠ .cold → i ≠ .reset → ∀ ms : Nat, Event.delay ms ∉ es)

/-- R42: "The block samples it only while it performs LOCKQ": every other command does the same whatever samples the run was
given and however many were drawn, and leaves them alone. -/
def Obligations.LockDetectReachesOnlyLockq : Prop :=
  ∀ (i : Instr) (s t : State) (samples : List Bool) (draws : Nat), i ≠ .lockq → exec i s = .next t →
    t.ldInputs = s.ldInputs ∧ t.ldDraws = s.ldDraws ∧
    exec i { s with ldInputs := samples, ldDraws := draws } = .next { t with ldInputs := samples, ldDraws := draws }

/-! ### Field access (spec/41_field_access.md) -/

/-- R130 to R133: SETF, on every operand value. In UNINIT it faults; else a rejected field changes nothing, and a field
`3 ≤ lo ≤ hi ≤ 31` of registers 0 to 6 takes VALUE mod 2^w, every other bit of the word and every other register stays, the
register's dirty bit is set where the word changed, no other dirty bit changes, and nothing else of the state does. -/
def Obligations.SetfWritesExactlyItsField : Prop :=
  ∀ (reg hi lo : BitVec 8) (value : Word) (s : State),
    (s.mode = .uninit →
      exec (.setf reg hi lo value) s =
        .next { s with fault := some { code := .uninit, header := (Instr.setf reg hi lo value).header } }) ∧
    (s.mode ≠ .uninit → ∃ t : State, exec (.setf reg hi lo value) s = .next t ∧
      (min hi.toNat lo.toNat < 3 ∨ max hi.toNat lo.toNat > 31 ∨ reg.toNat > 6 → t = s) ∧
      ∀ r : Fin 7, r.val = reg.toNat → 3 ≤ min hi.toNat lo.toNat → max hi.toNat lo.toNat ≤ 31 →
        FieldReplaced (max hi.toNat lo.toNat) (min hi.toNat lo.toNat) value.toNat (readReg r s) (readReg r t) ∧
        (∀ j : Fin 7, j ≠ r → readReg j t = readReg j s) ∧
        (∀ j : Fin 7, isDirty j t = (isDirty j s || (j == r && readReg r t != readReg r s))) ∧
        t = { s with regs := t.regs, dirty := t.dirty })

/-- R131: the two bit positions may come in either order, for all values of both (in UNINIT, where both spellings fault, the
records differ in the header alone). -/
def Obligations.SetfIgnoresTheOrderOfItsBounds : Prop :=
  ∀ (reg a b : BitVec 8) (value : Word) (s : State), s.mode ≠ .uninit →
    ∃ t : State, exec (.setf reg a b value) s = .next t ∧ exec (.setf reg b a value) s = .next t

/-- R134: a second SETF with the same operands changes nothing, nor does one that leaves the words as they were; a SETF newly sets a
dirty bit only where the word changed, and clears none. -/
def Obligations.SetfIsIdempotentAndNeverCleans : Prop :=
  ∀ (reg hi lo : BitVec 8) (value : Word) (s t : State), s.mode ≠ .uninit → exec (.setf reg hi lo value) s = .next t →
    exec (.setf reg hi lo value) t = .next t ∧ (t.regs = s.regs → t = s) ∧
    (∀ j : Fin 7, isDirty j t = true → isDirty j s = true ∨ readReg j t ≠ readReg j s) ∧
    ∀ j : Fin 7, isDirty j s = true → isDirty j t = true

/-- R135: GETF, on every operand value: it faults in UNINIT; else it answers one word, the field zero-extended, or 0 for a field it
rejects, and writes no state. -/
def Obligations.GetfAnswersTheField : Prop :=
  ∀ (reg hi lo : BitVec 8) (s : State),
    (s.mode = .uninit →
      exec (.getf reg hi lo) s =
        .next { s with fault := some { code := .uninit, header := (Instr.getf reg hi lo).header } }) ∧
    (s.mode ≠ .uninit → ∃ w : Word, exec (.getf reg hi lo) s = .next { s with responses := s.responses ++ [w] } ∧
      (min hi.toNat lo.toNat < 3 ∨ max hi.toNat lo.toNat > 31 ∨ reg.toNat > 6 → w = 0) ∧
      ∀ r : Fin 7, r.val = reg.toNat → 3 ≤ min hi.toNat lo.toNat → max hi.toNat lo.toNat ≤ 31 →
        ∀ j < 32, w.getLsbD j =
          (decide (j ≤ max hi.toNat lo.toNat - min hi.toNat lo.toNat) && (readReg r s).getLsbD (min hi.toNat lo.toNat + j)))

/-- R136: "After a valid SETF, a GETF of the same field returns `VALUE mod 2^w`". -/
def Obligations.GetfAfterSetfReturnsTheValue : Prop :=
  ∀ (reg hi lo : BitVec 8) (value : Word) (s t : State), s.mode ≠ .uninit →
    3 ≤ lo.toNat → lo.toNat ≤ hi.toNat → hi.toNat ≤ 31 → reg.toNat ≤ 6 → exec (.setf reg hi lo value) s = .next t →
      exec (.getf reg hi lo) t =
        .next { t with responses := t.responses ++ [BitVec.ofNat 32 (value.toNat % 2 ^ (hi.toNat - lo.toNat + 1))] }

/-! ### RESET, FLUSH and the write-back sequencer (spec/42_writeback.md) -/

/-- R160: RESET from every state, under both coupling policies: its 13 writes and 1 delay in order, register 4 masked in the first
pass only, and the state it ends in. -/
def Obligations.ResetRunsTheColdStart : Prop :=
  ∀ s : State, exec .reset s = .next
    { s with
      regs := s.cfg.defaultImage, dirty := 0, mode := .steady, seq := .idle, lastDiva := divaOf (s.cfg.imageWord 4)
      events := s.events ++
        [.write (s.cfg.imageWord 5), .delay s.cfg.settleMs, .write (s.cfg.imageWord 4 &&& 0xFFFFFEDF),
         .write (s.cfg.imageWord 3), .write (s.cfg.imageWord 2), .write (s.cfg.imageWord 1), .write (s.cfg.imageWord 0),
         .write (s.cfg.imageWord 6), .write (s.cfg.imageWord 5), .write (s.cfg.imageWord 4), .write (s.cfg.imageWord 3),
         .write (s.cfg.imageWord 2), .write (s.cfg.imageWord 1), .write (s.cfg.imageWord 0)] }

/-- R151, R157, R158: FLUSH in mode STEADY: exactly the dirty registers, and register 0 where the coupling rule forces it, are sent
whole, once, from 6 down to 0; then no register is dirty, and `lastDiva` is the DIVA of a register 4 that was sent. Nothing else
changes. -/
def Obligations.FlushSendsTheDirtyRegisters : Prop :=
  ∀ s : State, s.mode = .steady → exec .flush s = .next (afterFlush s)

/-- R159: a FLUSH with nothing dirty emits nothing and changes no state but `seq`, and one with registers 0, 1 and 4 clean never
sends register 0. -/
def Obligations.CleanFlushSendsNothing : Prop :=
  (∀ s : State, s.mode = .steady → s.dirty = 0 → exec .flush s = .next { s with seq := .idle }) ∧
  ∀ s : State, s.mode = .steady → isDirty 0 s = false → isDirty 1 s = false → isDirty 4 s = false →
    ∃ (t : State) (ids : List (Fin 7)), exec .flush s = .next t ∧
      t.events = s.events ++ ids.map (fun j => .write (readReg j s)) ∧ 0 ∉ ids

/-- R161: with register 4 dirty, its DIVA as last sent, and registers 0 and 1 clean, the two policies send the same registers, but
`UNCONDITIONAL` then sends register 0 as well. -/
def Obligations.CouplingPoliciesDifferByRegister0 : Prop :=
  ∀ s : State, s.mode = .steady → isDirty 4 s = true → isDirty 0 s = false → isDirty 1 s = false →
    divaOf (readReg 4 s) = s.lastDiva →
    ∃ (t u : State) (ids : List (Fin 7)),
      exec .flush { s with cfg := { s.cfg with coupling := .divaChange } } = .next t ∧
      exec .flush { s with cfg := { s.cfg with coupling := .unconditional } } = .next u ∧
      t.events = s.events ++ ids.map (fun j => .write (readReg j s)) ∧ 0 ∉ ids ∧ 4 ∈ ids ∧
      u.events = t.events ++ [.write (readReg 0 s)]

/-- R162, R25: the write-back a command runs whole is the sequencer run one phase at a time, from its first phase: seven phases, or
fourteen after a RESET (an idle sequencer stays as it is). -/
def Obligations.WriteBackIsItsPhases : Prop :=
  ∀ s : State, sequencerStep^[14] (beginWriteBack s) = writeBack s

/-- R162: inside a steady pass, after `k` phases, the dirty bits of the registers already visited are clear and the others are as the
coupling step left them, while the words, the mode and the fault record are untouched. -/
def Obligations.DirtyBitsInsideASteadyPass : Prop :=
  ∀ (s : State) (k : Nat), s.mode ≠ .cold → k ≤ 7 →
    (∀ j : Fin 7, isDirty j (sequencerStep^[k] (beginWriteBack s)) = (isDirty j (couple s) && decide (j.val + k < 7))) ∧
    (sequencerStep^[k] (beginWriteBack s)).regs = s.regs ∧ (sequencerStep^[k] (beginWriteBack s)).mode = s.mode ∧
    (sequencerStep^[k] (beginWriteBack s)).fault = s.fault

/-! ### Output control, set-frequency and lock status (spec/43_output_and_status.md) -/

/-- R180, R181: OUTSEL faults in UNINIT; in mode STEADY it puts ENA in bit 5 and ENB in bit 8 of register 4, no other bit, marks it dirty where that
changes it, and then always flushes. -/
def Obligations.OutselSetsTheEnablesAndFlushes : Prop :=
  ∀ (ena enb : BitVec 1) (s : State),
    (s.mode = .uninit →
      exec (.outsel ena enb) s = .next { s with fault := some { code := .uninit, header := (Instr.outsel ena enb).header } }) ∧
    (s.mode = .steady →
      exec (.outsel ena enb) s =
        .next (afterFlush (withReg 4
          ((readReg 4 s &&& 0xFFFFFEDF) ||| (ena.setWidth 32 <<< 5) ||| (enb.setWidth 32 <<< 8)) s)))

/-- R182, R183, R184: OUTPWR faults in UNINIT; otherwise a level outside the table, or PORT = 3, does nothing, with no write-back even
where registers are dirty; and with a level of the table and a port, in mode STEADY, the level's code goes into bits [4:3] of
register 4 for port A, into bits [7:6] for port B, into both for all ports, and into no other bit, and a write-back runs, the
word changed or not. -/
def Obligations.OutpwrSetsTheLevelAndFlushes : Prop :=
  ∀ (level : BitVec 8) (port : BitVec 2) (s : State),
    (s.mode = .uninit →
      exec (.outpwr level port) s =
        .next { s with fault := some { code := .uninit, header := (Instr.outpwr level port).header } }) ∧
    (s.mode ≠ .uninit → ((level.toInt ≠ -4 ∧ level.toInt ≠ -1 ∧ level.toInt ≠ 2 ∧ level.toInt ≠ 5) ∨ port = 3) →
      exec (.outpwr level port) s = .next s) ∧
    ∀ code : BitVec 2, s.mode = .steady →
      ((level.toInt = -4 ∧ code = 0b00) ∨ (level.toInt = -1 ∧ code = 0b01) ∨ (level.toInt = 2 ∧ code = 0b10) ∨
        (level.toInt = 5 ∧ code = 0b11)) →
      (port = 0 → exec (.outpwr level port) s =
        .next (afterFlush (withReg 4 ((readReg 4 s &&& 0xFFFFFFE7) ||| (code.setWidth 32 <<< 3)) s))) ∧
      (port = 1 → exec (.outpwr level port) s =
        .next (afterFlush (withReg 4 ((readReg 4 s &&& 0xFFFFFF3F) ||| (code.setWidth 32 <<< 6)) s))) ∧
      (port = 2 → exec (.outpwr level port) s =
        .next (afterFlush (withReg 4
          ((readReg 4 s &&& 0xFFFFFF27) ||| (code.setWidth 32 <<< 3) ||| (code.setWidth 32 <<< 6)) s)))

/-- R186, R187: SETFREQ raises F_UNINIT in UNINIT, else F_SOLVE_DOMAIN where an operand is 0; in mode STEADY it writes the solved
values, N mod 2^16 to register 0 [30:15], Frac to [14:3], M to register 1 [14:3] and DIVA mod 2^3 to register 4 [22:20], no other
bit, marks each changed register dirty, and flushes. -/
def Obligations.SetfreqProgramsTheSolvedDividers : Prop :=
  ∀ (targetHz refHz : BitVec 64) (s : State),
    (s.mode = .uninit →
      exec (.setfreq targetHz refHz) s = .next { s with fault := some { code := .uninit, header := 0x00000012 } }) ∧
    (s.mode ≠ .uninit → targetHz = 0 ∨ refHz = 0 →
      exec (.setfreq targetHz refHz) s = .next { s with fault := some { code := .solveDomain, header := 0x00000012 } }) ∧
    (s.mode = .steady → targetHz ≠ 0 → refHz ≠ 0 →
      let d := solve targetHz.toNat refHz.toNat
      exec (.setfreq targetHz refHz) s =
        .next (afterFlush
          (withReg 4 ((readReg 4 s &&& 0xFF8FFFFF) ||| (BitVec.ofNat 32 (d.diva % 2 ^ 3) <<< 20))
          (withReg 1 ((readReg 1 s &&& 0xFFFF8007) ||| (BitVec.ofNat 32 d.modulus <<< 3))
          (withReg 0 ((readReg 0 s &&& 0x80000007) ||| (BitVec.ofNat 32 (d.n % 2 ^ 16) <<< 15) |||
            (BitVec.ofNat 32 d.frac <<< 3)) s)))))

/-- R109, R113, R186 together: after a SETFREQ whose solution fits the fields (`SolverInRange`), the frequency that the divider
fields of registers 0, 1 and 4 spell is within REF_HZ / (8190 * 2^DIVA) of the target, and none of the three registers is
left dirty. -/
def Obligations.SetfreqInRangeMeetsTheTarget : Prop :=
  ∀ (targetHz refHz : BitVec 64) (s : State), s.mode = .steady → targetHz ≠ 0 → refHz ≠ 0 →
    SolverInRange targetHz.toNat refHz.toNat →
    ∃ t : State, exec (.setfreq targetHz refHz) s = .next t ∧ t.dirty = 0 ∧
      |outputHz ((readReg 0 t).extractLsb' 15 16).toNat ((readReg 0 t).extractLsb' 3 12).toNat
          ((readReg 1 t).extractLsb' 3 12).toNat (divaOf (readReg 4 t)).toNat refHz.toNat - targetHz.toNat| ≤
        (refHz.toNat : Rat) / (8190 * 2 ^ (divaOf (readReg 4 t)).toNat)

/-- R190: LOCKQ in every mode answers one word whose bit 0 is the sample: the next one given to the run, or a value under no law
where none is left; no state of the block changes. -/
def Obligations.LockqForwardsTheSample : Prop :=
  (∀ (s : State) (ld : Bool) (more : List Bool), s.ldInputs = ld :: more →
    exec .lockq s =
      .next { s with ldInputs := more, responses := s.responses ++ [if ld then 0x00000001 else 0x00000000] }) ∧
  ∀ s : State, s.ldInputs = [] → ∃ ld : Bool,
    exec .lockq s =
      .next { s with ldDraws := s.ldDraws + 1, responses := s.responses ++ [if ld then 0x00000001 else 0x00000000] }

/-! ### The divider solver (spec/40_solver.md) -/

/-- R100: on every nonzero target and reference the solver the commands run, which computes in integers, gives what the rule's
pseudocode gives in exact rationals. -/
def Obligations.SolverIsTheExactPseudocode : Prop :=
  ∀ targetHz refHz : Nat, 0 < targetHz → 0 < refHz → exactSolve targetHz refHz = some (solve targetHz refHz)

/-- R108 with R101, R103, R107: SOLVE in every mode answers its six words and changes nothing else, and no word loses a bit of the
result: N below 2^64, M in 2..4095, Frac in 0..M, DIVA at most 32; Fpfd is REF_HZ. -/
def Obligations.SolveAnswersTheDividers : Prop :=
  ∀ (targetHz refHz : BitVec 64) (s : State), targetHz ≠ 0 → refHz ≠ 0 →
    let d := solve targetHz.toNat refHz.toNat
    exec (.solve targetHz refHz) s = .next
      { s with
        responses := s.responses ++
          [BitVec.ofNat 32 d.n, BitVec.ofNat 32 (d.n / 2 ^ 32), BitVec.ofNat 16 d.modulus ++ BitVec.ofNat 16 d.frac,
           BitVec.ofNat 32 d.diva, refHz.extractLsb' 0 32, refHz.extractLsb' 32 32] } ∧
    d.n < 2 ^ 64 ∧ 2 ≤ d.modulus ∧ d.modulus ≤ 4095 ∧ d.frac ≤ d.modulus ∧ d.diva ≤ 32 ∧ d.fpfd = refHz.toNat

/-- R102, R103: the doubling stops at the first VCO frequency not below 3000000000 Hz, after at most 32 doublings and with no halving,
and N is the floor of the ratio. -/
def Obligations.SolverDoublesIntoTheVcoBand : Prop :=
  ∀ targetHz refHz : Nat, 0 < targetHz → 0 < refHz →
    let d := solve targetHz refHz
    3000000000 ≤ targetHz * 2 ^ d.diva ∧ (0 < d.diva → targetHz * 2 ^ (d.diva - 1) < 3000000000) ∧ d.diva ≤ 32 ∧
      (3000000000 ≤ targetHz → d.diva = 0) ∧ d.n = targetHz * 2 ^ d.diva / refHz

/-- R104, R105: the result has the smallest error |F/M - frac| of all moduli 2 to 4095, each with its rounded numerator, and the
largest modulus among those with that error. -/
def Obligations.SolverPicksTheBestLargestModulus : Prop :=
  ∀ targetHz refHz : Nat, 0 < targetHz → 0 < refHz →
    let d := solve targetHz refHz
    let frac : Rat := ((targetHz * 2 ^ d.diva % refHz : Nat) : Rat) / refHz
    d.frac = roundHalfUp (frac * d.modulus) ∧ 2 ≤ d.modulus ∧ d.modulus ≤ 4095 ∧
    ∀ m : Nat, 2 ≤ m → m ≤ 4095 →
      |(d.frac : Rat) / d.modulus - frac| ≤ |(roundHalfUp (frac * m) : Rat) / m - frac| ∧
      (d.modulus < m → |(d.frac : Rat) / d.modulus - frac| < |(roundHalfUp (frac * m) : Rat) / m - frac|)

/-- R106: a remainder that is p/q in lowest terms with q at most 4095 is met exactly, at the largest multiple of q not above 4095;
a remainder of no such form leaves a positive error. -/
def Obligations.SolverMeetsSmallFractionsExactly : Prop :=
  ∀ targetHz refHz : Nat, 0 < targetHz → 0 < refHz →
    let d := solve targetHz refHz
    let rem := targetHz * 2 ^ d.diva % refHz
    (∀ p q : Nat, 1 ≤ q → q ≤ 4095 → Nat.Coprime p q → rem * q = p * refHz →
      d.modulus = q * (4095 / q) ∧ d.frac = p * (4095 / q)) ∧
    ((∀ p q : Nat, 1 ≤ q → q ≤ 4095 → rem * q ≠ p * refHz) → d.frac * refHz ≠ rem * d.modulus)

/-- R107: with the remainder above 1 - 1/8190 the result is Frac = M = 4095, and N stays the floor: the pair is not carried
into N. -/
def Obligations.FracMayEqualTheModulus : Prop :=
  ∀ targetHz refHz : Nat, 0 < targetHz → 0 < refHz →
    let d := solve targetHz refHz
    (1 : Rat) - 1 / 8190 < ((targetHz * 2 ^ d.diva % refHz : Nat) : Rat) / refHz →
      d.frac = 4095 ∧ d.modulus = 4095 ∧ d.n = targetHz * 2 ^ d.diva / refHz

/-- R113: the solved VCO frequency is within Fpfd/8190 of the doubled target, and the projected output within Fpfd/(8190 * 2^DIVA) of
the target. -/
def Obligations.SolverErrorIsBounded : Prop :=
  ∀ targetHz refHz : Nat, 0 < targetHz → 0 < refHz →
    let d := solve targetHz refHz
    |vcoHz d - targetHz * 2 ^ d.diva| ≤ (refHz : Rat) / 8190 ∧
    |outputHz d.n d.frac d.modulus d.diva refHz - targetHz| ≤ (refHz : Rat) / (8190 * 2 ^ d.diva)

/-- R110: PROJ in every mode raises F_PROJ_DOMAIN where MOD or REF_HZ is 0; else it answers the four words of NUM, low word first,
and changes nothing else; NUM is below 2^128, so no bit is lost, and it is the output frequency times MOD * 2^DIVA. -/
def Obligations.ProjAnswersTheExactNumerator : Prop :=
  ∀ (n : Word) (frac modulus : BitVec 16) (diva : BitVec 8) (refHz : BitVec 64) (s : State),
    (modulus = 0 ∨ refHz = 0 →
      exec (.proj n frac modulus diva refHz) s =
        .next { s with fault := some { code := .projDomain, header := (Instr.proj n frac modulus diva refHz).header } }) ∧
    (modulus ≠ 0 → refHz ≠ 0 →
      let num := refHz.toNat * (n.toNat * modulus.toNat + frac.toNat)
      exec (.proj n frac modulus diva refHz) s = .next
        { s with
          responses := s.responses ++
            [BitVec.ofNat 32 num, BitVec.ofNat 32 (num / 2 ^ 32), BitVec.ofNat 32 (num / 2 ^ 64),
             BitVec.ofNat 32 (num / 2 ^ 96)] } ∧
      num < 2 ^ 128 ∧
      outputHz n.toNat frac.toNat modulus.toNat diva.toNat refHz.toNat = (num : Rat) / (modulus.toNat * 2 ^ diva.toNat))

/-! ### Invariants -/

/-- R46: the state after power-on reset meets every invariant stated below. -/
def Obligations.PowerOnStateMeetsTheInvariants : Prop :=
  TagsHeld State.reset ∧ BetweenCommands State.reset ∧ CleanIsSent State.reset ∧ DivaRemembered State.reset ∧
    UninitUntouched State.reset

/-- R22: every step keeps each shadow word's address tag equal to its index. -/
def Obligations.EveryStepKeepsTheTags : Prop :=
  ∀ s t : State, TagsHeld s → step s = .next t → TagsHeld t

/-- R24, R25: "`COLD` is never the mode between two commands", and `seq` is IDLE there: every step of a block between commands
ends between commands. -/
def Obligations.EveryStepEndsBetweenCommands : Prop :=
  ∀ s t : State, BetweenCommands s → step s = .next t → BetweenCommands t

/-- R23, R65: every step keeps the shadow coherent with the chip's side: in mode STEADY the word of each clean register is the last
word sent with its tag. -/
def Obligations.EveryStepKeepsCleanRegistersSent : Prop :=
  ∀ s t : State, TagsHeld s → BetweenCommands s → CleanIsSent s → step s = .next t → CleanIsSent t

/-- R26: every step keeps `lastDiva` the DIVA field of the last register-4 word sent. -/
def Obligations.EveryStepKeepsLastDiva : Prop :=
  ∀ s t : State, TagsHeld s → BetweenCommands s → DivaRemembered s → step s = .next t → DivaRemembered t

/-- R46, R24, R204: every step keeps the controller at its power-on values for as long as the mode is UNINIT. -/
def Obligations.EveryStepKeepsUninitUntouched : Prop :=
  ∀ s t : State, BetweenCommands s → UninitUntouched s → step s = .next t → UninitUntouched t

/-- R221, R61, R223: no step, a power-on reset included, takes back an event or a response or changes a parameter. -/
def Obligations.EveryStepOnlyAddsToWhatIsShown : Prop :=
  ∀ s t : State, step s = .next t → s.events <+: t.events ∧ s.responses <+: t.responses ∧ t.cfg = s.cfg
end

