-- ==== Sys2Proof/Laws/State.lean ====
section
/-! SUPPORT. Each field after each named update of the state: true by definition, so that no proof unfolds a record update. -/

namespace Sys2Proof.Machine

@[simp] theorem writeReg_regs (i : Fin 7) (v : Word) (s : State) : (writeReg i v s).regs = s.regs.set i v := rfl
@[simp] theorem writeReg_dirty (i : Fin 7) (v : Word) (s : State) : (writeReg i v s).dirty = s.dirty := rfl
@[simp] theorem writeReg_mode (i : Fin 7) (v : Word) (s : State) : (writeReg i v s).mode = s.mode := rfl
@[simp] theorem writeReg_seq (i : Fin 7) (v : Word) (s : State) : (writeReg i v s).seq = s.seq := rfl
@[simp] theorem writeReg_lastDiva (i : Fin 7) (v : Word) (s : State) : (writeReg i v s).lastDiva = s.lastDiva := rfl
@[simp] theorem writeReg_fault (i : Fin 7) (v : Word) (s : State) : (writeReg i v s).fault = s.fault := rfl
@[simp] theorem writeReg_cfg (i : Fin 7) (v : Word) (s : State) : (writeReg i v s).cfg = s.cfg := rfl
@[simp] theorem writeReg_inbox (i : Fin 7) (v : Word) (s : State) : (writeReg i v s).inbox = s.inbox := rfl
@[simp] theorem writeReg_ldInputs (i : Fin 7) (v : Word) (s : State) : (writeReg i v s).ldInputs = s.ldInputs := rfl
@[simp] theorem writeReg_ldDraws (i : Fin 7) (v : Word) (s : State) : (writeReg i v s).ldDraws = s.ldDraws := rfl
@[simp] theorem writeReg_events (i : Fin 7) (v : Word) (s : State) : (writeReg i v s).events = s.events := rfl
@[simp] theorem writeReg_responses (i : Fin 7) (v : Word) (s : State) : (writeReg i v s).responses = s.responses := rfl

@[simp] theorem emit_regs (e : Event) (s : State) : (emit e s).regs = s.regs := rfl
@[simp] theorem emit_dirty (e : Event) (s : State) : (emit e s).dirty = s.dirty := rfl
@[simp] theorem emit_mode (e : Event) (s : State) : (emit e s).mode = s.mode := rfl
@[simp] theorem emit_seq (e : Event) (s : State) : (emit e s).seq = s.seq := rfl
@[simp] theorem emit_lastDiva (e : Event) (s : State) : (emit e s).lastDiva = s.lastDiva := rfl
@[simp] theorem emit_fault (e : Event) (s : State) : (emit e s).fault = s.fault := rfl
@[simp] theorem emit_cfg (e : Event) (s : State) : (emit e s).cfg = s.cfg := rfl
@[simp] theorem emit_inbox (e : Event) (s : State) : (emit e s).inbox = s.inbox := rfl
@[simp] theorem emit_ldInputs (e : Event) (s : State) : (emit e s).ldInputs = s.ldInputs := rfl
@[simp] theorem emit_ldDraws (e : Event) (s : State) : (emit e s).ldDraws = s.ldDraws := rfl
@[simp] theorem emit_events (e : Event) (s : State) : (emit e s).events = s.events ++ [e] := rfl
@[simp] theorem emit_responses (e : Event) (s : State) : (emit e s).responses = s.responses := rfl

@[simp] theorem respond_regs (ws : List Word) (s : State) : (respond ws s).regs = s.regs := rfl
@[simp] theorem respond_dirty (ws : List Word) (s : State) : (respond ws s).dirty = s.dirty := rfl
@[simp] theorem respond_mode (ws : List Word) (s : State) : (respond ws s).mode = s.mode := rfl
@[simp] theorem respond_seq (ws : List Word) (s : State) : (respond ws s).seq = s.seq := rfl
@[simp] theorem respond_lastDiva (ws : List Word) (s : State) : (respond ws s).lastDiva = s.lastDiva := rfl
@[simp] theorem respond_fault (ws : List Word) (s : State) : (respond ws s).fault = s.fault := rfl
@[simp] theorem respond_cfg (ws : List Word) (s : State) : (respond ws s).cfg = s.cfg := rfl
@[simp] theorem respond_inbox (ws : List Word) (s : State) : (respond ws s).inbox = s.inbox := rfl
@[simp] theorem respond_ldInputs (ws : List Word) (s : State) : (respond ws s).ldInputs = s.ldInputs := rfl
@[simp] theorem respond_ldDraws (ws : List Word) (s : State) : (respond ws s).ldDraws = s.ldDraws := rfl
@[simp] theorem respond_events (ws : List Word) (s : State) : (respond ws s).events = s.events := rfl
@[simp] theorem respond_responses (ws : List Word) (s : State) : (respond ws s).responses = s.responses ++ ws := rfl

@[simp] theorem powerOn_regs (rest : List HostInput) (s : State) : (powerOn rest s).regs = s.cfg.defaultImage := rfl
@[simp] theorem powerOn_dirty (rest : List HostInput) (s : State) : (powerOn rest s).dirty = 0b1111111 := rfl
@[simp] theorem powerOn_mode (rest : List HostInput) (s : State) : (powerOn rest s).mode = .uninit := rfl
@[simp] theorem powerOn_seq (rest : List HostInput) (s : State) : (powerOn rest s).seq = .idle := rfl
@[simp] theorem powerOn_lastDiva (rest : List HostInput) (s : State) : (powerOn rest s).lastDiva = 0 := rfl
@[simp] theorem powerOn_fault (rest : List HostInput) (s : State) : (powerOn rest s).fault = none := rfl
@[simp] theorem powerOn_cfg (rest : List HostInput) (s : State) : (powerOn rest s).cfg = s.cfg := rfl
@[simp] theorem powerOn_inbox (rest : List HostInput) (s : State) : (powerOn rest s).inbox = rest := rfl
@[simp] theorem powerOn_ldInputs (rest : List HostInput) (s : State) : (powerOn rest s).ldInputs = s.ldInputs := rfl
@[simp] theorem powerOn_ldDraws (rest : List HostInput) (s : State) : (powerOn rest s).ldDraws = s.ldDraws := rfl
@[simp] theorem powerOn_events (rest : List HostInput) (s : State) : (powerOn rest s).events = s.events := rfl
@[simp] theorem powerOn_responses (rest : List HostInput) (s : State) : (powerOn rest s).responses = s.responses := rfl

@[simp] theorem setDirty_regs (i : Fin 7) (s : State) : (setDirty i s).regs = s.regs := rfl
@[simp] theorem setDirty_dirty (i : Fin 7) (s : State) : (setDirty i s).dirty = s.dirty ||| BitVec.twoPow 7 i := rfl
@[simp] theorem setDirty_mode (i : Fin 7) (s : State) : (setDirty i s).mode = s.mode := rfl
@[simp] theorem setDirty_seq (i : Fin 7) (s : State) : (setDirty i s).seq = s.seq := rfl
@[simp] theorem setDirty_lastDiva (i : Fin 7) (s : State) : (setDirty i s).lastDiva = s.lastDiva := rfl
@[simp] theorem setDirty_fault (i : Fin 7) (s : State) : (setDirty i s).fault = s.fault := rfl
@[simp] theorem setDirty_cfg (i : Fin 7) (s : State) : (setDirty i s).cfg = s.cfg := rfl
@[simp] theorem setDirty_inbox (i : Fin 7) (s : State) : (setDirty i s).inbox = s.inbox := rfl
@[simp] theorem setDirty_ldInputs (i : Fin 7) (s : State) : (setDirty i s).ldInputs = s.ldInputs := rfl
@[simp] theorem setDirty_ldDraws (i : Fin 7) (s : State) : (setDirty i s).ldDraws = s.ldDraws := rfl
@[simp] theorem setDirty_events (i : Fin 7) (s : State) : (setDirty i s).events = s.events := rfl
@[simp] theorem setDirty_responses (i : Fin 7) (s : State) : (setDirty i s).responses = s.responses := rfl

@[simp] theorem clearDirty_regs (i : Fin 7) (s : State) : (clearDirty i s).regs = s.regs := rfl
@[simp] theorem clearDirty_dirty (i : Fin 7) (s : State) : (clearDirty i s).dirty = s.dirty &&& ~~~(BitVec.twoPow 7 i) := rfl
@[simp] theorem clearDirty_mode (i : Fin 7) (s : State) : (clearDirty i s).mode = s.mode := rfl
@[simp] theorem clearDirty_seq (i : Fin 7) (s : State) : (clearDirty i s).seq = s.seq := rfl
@[simp] theorem clearDirty_lastDiva (i : Fin 7) (s : State) : (clearDirty i s).lastDiva = s.lastDiva := rfl
@[simp] theorem clearDirty_fault (i : Fin 7) (s : State) : (clearDirty i s).fault = s.fault := rfl
@[simp] theorem clearDirty_cfg (i : Fin 7) (s : State) : (clearDirty i s).cfg = s.cfg := rfl
@[simp] theorem clearDirty_inbox (i : Fin 7) (s : State) : (clearDirty i s).inbox = s.inbox := rfl
@[simp] theorem clearDirty_ldInputs (i : Fin 7) (s : State) : (clearDirty i s).ldInputs = s.ldInputs := rfl
@[simp] theorem clearDirty_ldDraws (i : Fin 7) (s : State) : (clearDirty i s).ldDraws = s.ldDraws := rfl
@[simp] theorem clearDirty_events (i : Fin 7) (s : State) : (clearDirty i s).events = s.events := rfl
@[simp] theorem clearDirty_responses (i : Fin 7) (s : State) : (clearDirty i s).responses = s.responses := rfl

@[simp] theorem setAllDirty_regs (s : State) : (setAllDirty s).regs = s.regs := rfl
@[simp] theorem setAllDirty_dirty (s : State) : (setAllDirty s).dirty = 0b1111111 := rfl
@[simp] theorem setAllDirty_mode (s : State) : (setAllDirty s).mode = s.mode := rfl
@[simp] theorem setAllDirty_seq (s : State) : (setAllDirty s).seq = s.seq := rfl
@[simp] theorem setAllDirty_lastDiva (s : State) : (setAllDirty s).lastDiva = s.lastDiva := rfl
@[simp] theorem setAllDirty_fault (s : State) : (setAllDirty s).fault = s.fault := rfl
@[simp] theorem setAllDirty_cfg (s : State) : (setAllDirty s).cfg = s.cfg := rfl
@[simp] theorem setAllDirty_inbox (s : State) : (setAllDirty s).inbox = s.inbox := rfl
@[simp] theorem setAllDirty_ldInputs (s : State) : (setAllDirty s).ldInputs = s.ldInputs := rfl
@[simp] theorem setAllDirty_ldDraws (s : State) : (setAllDirty s).ldDraws = s.ldDraws := rfl
@[simp] theorem setAllDirty_events (s : State) : (setAllDirty s).events = s.events := rfl
@[simp] theorem setAllDirty_responses (s : State) : (setAllDirty s).responses = s.responses := rfl

@[simp] theorem endCold_regs (s : State) : (endCold s).regs = s.regs := rfl
@[simp] theorem endCold_dirty (s : State) : (endCold s).dirty = 0b1111111 := rfl
@[simp] theorem endCold_mode (s : State) : (endCold s).mode = .steady := rfl
@[simp] theorem endCold_seq (s : State) : (endCold s).seq = s.seq := rfl
@[simp] theorem endCold_lastDiva (s : State) : (endCold s).lastDiva = s.lastDiva := rfl
@[simp] theorem endCold_fault (s : State) : (endCold s).fault = s.fault := rfl
@[simp] theorem endCold_cfg (s : State) : (endCold s).cfg = s.cfg := rfl
@[simp] theorem endCold_inbox (s : State) : (endCold s).inbox = s.inbox := rfl
@[simp] theorem endCold_ldInputs (s : State) : (endCold s).ldInputs = s.ldInputs := rfl
@[simp] theorem endCold_ldDraws (s : State) : (endCold s).ldDraws = s.ldDraws := rfl
@[simp] theorem endCold_events (s : State) : (endCold s).events = s.events := rfl
@[simp] theorem endCold_responses (s : State) : (endCold s).responses = s.responses := rfl

@[simp] theorem sendReg_regs (i : Fin 7) (s : State) : (sendReg i s).regs = s.regs := rfl
@[simp] theorem sendReg_dirty (i : Fin 7) (s : State) : (sendReg i s).dirty = s.dirty := rfl
@[simp] theorem sendReg_mode (i : Fin 7) (s : State) : (sendReg i s).mode = s.mode := rfl
@[simp] theorem sendReg_seq (i : Fin 7) (s : State) : (sendReg i s).seq = s.seq := rfl
@[simp] theorem sendReg_lastDiva (i : Fin 7) (s : State) : (sendReg i s).lastDiva = s.lastDiva := rfl
@[simp] theorem sendReg_fault (i : Fin 7) (s : State) : (sendReg i s).fault = s.fault := rfl
@[simp] theorem sendReg_cfg (i : Fin 7) (s : State) : (sendReg i s).cfg = s.cfg := rfl
@[simp] theorem sendReg_inbox (i : Fin 7) (s : State) : (sendReg i s).inbox = s.inbox := rfl
@[simp] theorem sendReg_ldInputs (i : Fin 7) (s : State) : (sendReg i s).ldInputs = s.ldInputs := rfl
@[simp] theorem sendReg_ldDraws (i : Fin 7) (s : State) : (sendReg i s).ldDraws = s.ldDraws := rfl
@[simp] theorem sendReg_events (i : Fin 7) (s : State) : (sendReg i s).events = s.events ++ [.write (readReg i s)] := rfl
@[simp] theorem sendReg_responses (i : Fin 7) (s : State) : (sendReg i s).responses = s.responses := rfl

@[simp] theorem sendMaskedReg4_regs (s : State) : (sendMaskedReg4 s).regs = s.regs := rfl
@[simp] theorem sendMaskedReg4_dirty (s : State) : (sendMaskedReg4 s).dirty = s.dirty := rfl
@[simp] theorem sendMaskedReg4_mode (s : State) : (sendMaskedReg4 s).mode = s.mode := rfl
@[simp] theorem sendMaskedReg4_seq (s : State) : (sendMaskedReg4 s).seq = s.seq := rfl
@[simp] theorem sendMaskedReg4_lastDiva (s : State) : (sendMaskedReg4 s).lastDiva = divaOf (maskedReg4 s) := rfl
@[simp] theorem sendMaskedReg4_fault (s : State) : (sendMaskedReg4 s).fault = s.fault := rfl
@[simp] theorem sendMaskedReg4_cfg (s : State) : (sendMaskedReg4 s).cfg = s.cfg := rfl
@[simp] theorem sendMaskedReg4_inbox (s : State) : (sendMaskedReg4 s).inbox = s.inbox := rfl
@[simp] theorem sendMaskedReg4_ldInputs (s : State) : (sendMaskedReg4 s).ldInputs = s.ldInputs := rfl
@[simp] theorem sendMaskedReg4_ldDraws (s : State) : (sendMaskedReg4 s).ldDraws = s.ldDraws := rfl
@[simp] theorem sendMaskedReg4_events (s : State) : (sendMaskedReg4 s).events = s.events ++ [.write (maskedReg4 s)] := rfl
@[simp] theorem sendMaskedReg4_responses (s : State) : (sendMaskedReg4 s).responses = s.responses := rfl

@[simp] theorem loadDefaults_regs (s : State) : (loadDefaults s).regs = s.cfg.defaultImage := rfl
@[simp] theorem loadDefaults_dirty (s : State) : (loadDefaults s).dirty = 0b1111111 := rfl
@[simp] theorem loadDefaults_mode (s : State) : (loadDefaults s).mode = .cold := rfl
@[simp] theorem loadDefaults_seq (s : State) : (loadDefaults s).seq = s.seq := rfl
@[simp] theorem loadDefaults_lastDiva (s : State) : (loadDefaults s).lastDiva = s.lastDiva := rfl
@[simp] theorem loadDefaults_fault (s : State) : (loadDefaults s).fault = s.fault := rfl
@[simp] theorem loadDefaults_cfg (s : State) : (loadDefaults s).cfg = s.cfg := rfl
@[simp] theorem loadDefaults_inbox (s : State) : (loadDefaults s).inbox = s.inbox := rfl
@[simp] theorem loadDefaults_ldInputs (s : State) : (loadDefaults s).ldInputs = s.ldInputs := rfl
@[simp] theorem loadDefaults_ldDraws (s : State) : (loadDefaults s).ldDraws = s.ldDraws := rfl
@[simp] theorem loadDefaults_events (s : State) : (loadDefaults s).events = s.events := rfl
@[simp] theorem loadDefaults_responses (s : State) : (loadDefaults s).responses = s.responses := rfl

@[simp] theorem maskedReg4_seq (p : SeqPhase) (s : State) : maskedReg4 { s with seq := p } = maskedReg4 s := rfl

@[simp] theorem readReg_seq (i : Fin 7) (p : SeqPhase) (s : State) : readReg i { s with seq := p } = readReg i s := rfl

@[simp] theorem isDirty_seq (i : Fin 7) (p : SeqPhase) (s : State) : isDirty i { s with seq := p } = isDirty i s := rfl

end Sys2Proof.Machine
end

