-- ==== Sys2Proof/Laws/Fields.lean ====
section
/-! SUPPORT. What the register, dirty-bit and field operations do, once each: the lemmas a proof cites instead of unfolding them. -/

namespace Sys2Proof.Machine

/-! ### Registers and dirty bits -/

theorem readReg_writeReg (i j : Fin 7) (v : Word) (s : State) :
    readReg j (writeReg i v s) = if j = i then v else readReg j s := by
  by_cases h : j = i
  · subst h; simp [readReg]
  · have : i.val ≠ j.val := fun e => h (Fin.ext e.symm)
    simp [readReg, h, this]

@[simp] theorem readReg_writeReg_self (i : Fin 7) (v : Word) (s : State) : readReg i (writeReg i v s) = v := by
  simp [readReg_writeReg]

@[simp] theorem readReg_setDirty (i j : Fin 7) (s : State) : readReg j (setDirty i s) = readReg j s := rfl
@[simp] theorem readReg_clearDirty (i j : Fin 7) (s : State) : readReg j (clearDirty i s) = readReg j s := rfl
@[simp] theorem readReg_emit (e : Event) (j : Fin 7) (s : State) : readReg j (emit e s) = readReg j s := rfl
@[simp] theorem readReg_respond (ws : List Word) (j : Fin 7) (s : State) : readReg j (respond ws s) = readReg j s := rfl
@[simp] theorem isDirty_writeReg (i j : Fin 7) (v : Word) (s : State) : isDirty j (writeReg i v s) = isDirty j s := rfl
@[simp] theorem isDirty_emit (e : Event) (j : Fin 7) (s : State) : isDirty j (emit e s) = isDirty j s := rfl

theorem dirty_or_twoPow (d : BitVec 7) (i j : Fin 7) :
    (d ||| BitVec.twoPow 7 i).getLsbD j = (d.getLsbD j || decide (j = i)) := by
  rw [BitVec.getLsbD_or, BitVec.getLsbD_twoPow]
  by_cases h : j = i
  · subst h; simp
  · have : i.val ≠ j.val := fun e => h (Fin.ext e.symm)
    simp [h, this]

theorem dirty_and_not_twoPow (d : BitVec 7) (i j : Fin 7) :
    (d &&& ~~~(BitVec.twoPow 7 i)).getLsbD j = (d.getLsbD j && !decide (j = i)) := by
  rw [BitVec.getLsbD_and, BitVec.getLsbD_not, BitVec.getLsbD_twoPow]
  by_cases h : j = i
  · subst h; simp
  · have : i.val ≠ j.val := fun e => h (Fin.ext e.symm)
    simp [h, this]

theorem isDirty_setDirty (i j : Fin 7) (s : State) : isDirty j (setDirty i s) = (isDirty j s || decide (j = i)) :=
  dirty_or_twoPow s.dirty i j

theorem isDirty_clearDirty (i j : Fin 7) (s : State) : isDirty j (clearDirty i s) = (isDirty j s && !decide (j = i)) :=
  dirty_and_not_twoPow s.dirty i j

/-- A dirty mask is its seven bits. -/
theorem dirty_ext {d e : BitVec 7} (h : ∀ j : Fin 7, d.getLsbD j = e.getLsbD j) : d = e :=
  BitVec.eq_of_getLsbD_eq fun i hi => h ⟨i, hi⟩

/-! ### Fields -/

theorem normalise_eq (a b : Nat) : normalise a b = (max a b, min a b) := by
  unfold normalise
  split
  · rw [max_eq_left ‹_›, min_eq_right ‹_›]
  · rw [max_eq_right (by omega), min_eq_left (by omega)]

theorem normalise_comm (a b : Nat) : normalise a b = normalise b a := by
  rw [normalise_eq, normalise_eq, max_comm, min_comm]

theorem fieldOf_rejects {reg hi lo : Nat} (h : min hi lo < 3 ∨ max hi lo > 31 ∨ reg > 6) : fieldOf reg hi lo = none := by
  simp only [fieldOf, normalise_eq]
  exact if_pos h

theorem fieldOf_accepts {reg hi lo : Nat} (hr : reg ≤ 6) (hl : 3 ≤ min hi lo) (hh : max hi lo ≤ 31) :
    fieldOf reg hi lo = some { reg := Fin.ofNat 7 reg, hi := max hi lo, lo := min hi lo } := by
  simp only [fieldOf, normalise_eq]
  exact if_neg (by omega)

theorem mask_getLsbD {hi lo j : Nat} (hlh : lo ≤ hi) (hj : j < 32) :
    (mask hi lo).getLsbD j = (decide (lo ≤ j) && decide (j ≤ hi)) := by
  rw [mask, BitVec.getLsbD_shiftLeft, BitVec.getLsbD_ofNat, Nat.testBit_two_pow_sub_one]
  by_cases h : lo ≤ j <;> by_cases h' : j ≤ hi
  · simp [h, h', hj, show j - lo < hi - lo + 1 by omega, show j - lo < 32 by omega]
  · simp [h, h', hj, show ¬ j - lo < hi - lo + 1 by omega]
  · simp [h]
  · simp [h]

/-- The written word, bit by bit (41_field_access.md R133). -/
theorem insertBits_getLsbD {hi lo j : Nat} (value : Nat) (old : Word) (hlh : lo ≤ hi) (hj : j < 32) :
    (insertBits hi lo value old).getLsbD j =
      if lo ≤ j ∧ j ≤ hi then value.testBit (j - lo) else old.getLsbD j := by
  rw [insertBits, BitVec.getLsbD_or, BitVec.getLsbD_and, BitVec.getLsbD_and, BitVec.getLsbD_not, mask_getLsbD hlh hj,
    BitVec.getLsbD_shiftLeft, BitVec.getLsbD_ofNat]
  by_cases h : lo ≤ j <;> by_cases h' : j ≤ hi
  · simp [h, h', hj, show j - lo < 32 by omega]
  · simp [h, h', hj]
  · simp [h, hj]
  · simp [h, hj]

theorem insertBits_fieldReplaced {hi lo : Nat} (value : Nat) (old : Word) (hlh : lo ≤ hi) :
    FieldReplaced hi lo value old (insertBits hi lo value old) :=
  fun _ hj => insertBits_getLsbD value old hlh hj

/-- The read word, bit by bit (41_field_access.md R135). -/
theorem extractBits_getLsbD {hi lo j : Nat} (w : Word) (hj : j < 32) :
    (extractBits hi lo w).getLsbD j = (decide (j ≤ hi - lo) && w.getLsbD (lo + j)) := by
  rw [extractBits, BitVec.getLsbD_setWidth, BitVec.getLsbD_extractLsb]
  by_cases h : j ≤ hi - lo <;> simp [h, hj]

theorem withReg_of_eq {i : Fin 7} {w : Word} {s : State} (h : w = readReg i s) : withReg i w s = s := if_pos h

theorem withReg_of_ne {i : Fin 7} {w : Word} {s : State} (h : w ≠ readReg i s) :
    withReg i w s = setDirty i (writeReg i w s) := if_neg h

theorem readReg_withReg (i j : Fin 7) (w : Word) (s : State) :
    readReg j (withReg i w s) = if j = i then w else readReg j s := by
  by_cases h : w = readReg i s
  · rw [withReg_of_eq h]; split
    · subst_vars; rfl
    · rfl
  · rw [withReg_of_ne h, readReg_setDirty, readReg_writeReg]

theorem isDirty_withReg (i j : Fin 7) (w : Word) (s : State) :
    isDirty j (withReg i w s) = (isDirty j s || (decide (j = i) && w != readReg i s)) := by
  by_cases h : w = readReg i s
  · rw [withReg_of_eq h]; simp [h]
  · rw [withReg_of_ne h, isDirty_setDirty, isDirty_writeReg, bne_iff_ne.mpr h, Bool.and_true]

/-- All that a register update may change besides. -/
theorem withReg_frame (i : Fin 7) (w : Word) (s : State) :
    withReg i w s = { s with regs := (withReg i w s).regs, dirty := (withReg i w s).dirty } := by
  unfold withReg; split <;> rfl

/-- Two updates of one register in a row are the last one, unless the first one changes the word and the second restores it. -/
theorem withReg_withReg_same {i : Fin 7} {v w : Word} {s : State} (h : w = readReg i s → v = readReg i s) :
    withReg i w (withReg i v s) = withReg i w s := by
  by_cases hv : v = readReg i s
  · rw [withReg_of_eq hv]
  · have hw : w ≠ readReg i s := fun e => hv (h e)
    rw [withReg_of_ne hw, withReg_of_ne hv]
    by_cases hvw : w = v
    · subst hvw; rw [withReg_of_eq (by simp)]
    · rw [withReg_of_ne (by simpa using hvw)]
      simp only [setDirty, writeReg]
      congr 1
      · simp
      · rw [BitVec.or_assoc, BitVec.or_self]

/-- A field write is a register update with the written word (41_field_access.md R130, R134). -/
theorem writeField_eq (f : Field) (value : Nat) (s : State) :
    writeField f value s = withReg f.reg (insertBits f.hi f.lo value (readReg f.reg s)) s := by
  simp only [writeField]
  split
  · exact (withReg_of_eq ‹_›).symm
  · exact (withReg_of_ne ‹_›).symm

/-- SETF's body on a rejected field (41_field_access.md R132). -/
theorem setField_rejects {reg hi lo : Nat} (value : Nat) (s : State) (h : min hi lo < 3 ∨ max hi lo > 31 ∨ reg > 6) :
    setField reg hi lo value s = s := by
  rw [setField, fieldOf_rejects h]

/-- SETF's body on a field it accepts (41_field_access.md R130). -/
theorem setField_accepts {reg hi lo : Nat} (value : Nat) (s : State) (hr : reg ≤ 6) (hl : 3 ≤ min hi lo) (hh : max hi lo ≤ 31) :
    setField reg hi lo value s =
      withReg (Fin.ofNat 7 reg) (insertBits (max hi lo) (min hi lo) value (readReg (Fin.ofNat 7 reg) s)) s := by
  rw [setField, fieldOf_accepts hr hl hh]
  exact writeField_eq _ _ _

theorem setField_comm (reg a b value : Nat) (s : State) : setField reg a b value s = setField reg b a value s := by
  simp only [setField, fieldOf, normalise_comm a b]

/-- A field write changes registers and dirty bits only. -/
theorem setField_frame (reg hi lo value : Nat) (s : State) :
    setField reg hi lo value s =
      { s with regs := (setField reg hi lo value s).regs, dirty := (setField reg hi lo value s).dirty } := by
  unfold setField
  split
  · rfl
  · rw [writeField_eq]; exact withReg_frame _ _ _

theorem getField_rejects {reg hi lo : Nat} (s : State) (h : min hi lo < 3 ∨ max hi lo > 31 ∨ reg > 6) :
    getField reg hi lo s = 0 := by
  rw [getField, fieldOf_rejects h]

theorem getField_accepts {reg hi lo : Nat} (s : State) (hr : reg ≤ 6) (hl : 3 ≤ min hi lo) (hh : max hi lo ≤ 31) :
    getField reg hi lo s = extractBits (max hi lo) (min hi lo) (readReg (Fin.ofNat 7 reg) s) := by
  rw [getField, fieldOf_accepts hr hl hh]

end Sys2Proof.Machine
end

