-- ==== Sys2Proof/Laws/Sequencer.lean ====
section
/-! SUPPORT. What the sequencer's passes do, in closed form (spec/42_writeback.md R153 to R158). -/

namespace Sys2Proof.Machine

/-- One register's turn, whether it is dirty or not (R158). -/
theorem steadyTurn_eq (i : Fin 7) (s : State) :
    steadyTurn i s =
      { s with
        dirty := s.dirty &&& ~~~(BitVec.twoPow 7 i)
        lastDiva := if isDirty i s = true ∧ i = 4 then divaOf (readReg 4 s) else s.lastDiva
        events := s.events ++ if isDirty i s then [.write (readReg i s)] else [] } := by
  unfold steadyTurn
  cases h : isDirty i s
  · have hd : s.dirty &&& ~~~(BitVec.twoPow 7 i) = s.dirty := dirty_ext fun j => by
      rw [dirty_and_not_twoPow]
      by_cases hj : j = i
      · subst hj; simpa [isDirty] using h
      · simp [hj]
    simp [hd]
  · by_cases hi : i = 4
    · subst hi; rfl
    · simp only [hi, and_false, if_false, if_true]; rfl

/-- The dirty mask after the turns of a list of registers. -/
def clearAll (ids : List (Fin 7)) (d : BitVec 7) : BitVec 7 :=
  ids.foldl (fun (d : BitVec 7) (i : Fin 7) => d &&& ~~~(BitVec.twoPow 7 i.val)) d

theorem clearAll_getLsbD (ids : List (Fin 7)) (d : BitVec 7) (j : Fin 7) :
    (clearAll ids d).getLsbD j = (d.getLsbD j && !decide (j ∈ ids)) := by
  induction ids generalizing d with
  | nil => simp [clearAll]
  | cons i ids ih =>
    have h := ih (d &&& ~~~(BitVec.twoPow 7 i))
    rw [dirty_and_not_twoPow] at h
    simp only [clearAll, List.foldl_cons] at h ⊢
    rw [h]
    by_cases hj : j = i <;> simp [hj]

/-- The turns of registers that come once each: the dirty ones are sent in order, and none of them is dirty afterwards (R158). -/
theorem turns_eq (ids : List (Fin 7)) (hn : ids.Nodup) (s : State) :
    (ids.map SeqPhase.wb).foldl runPhase s =
      { s with
        seq := ((ids.map SeqPhase.wb).getLast?).getD s.seq
        dirty := clearAll ids s.dirty
        lastDiva := if isDirty 4 s = true ∧ 4 ∈ ids then divaOf (readReg 4 s) else s.lastDiva
        events := s.events ++ (ids.filter (isDirty · s)).map fun i => .write (readReg i s) } := by
  induction ids generalizing s with
  | nil => simp [clearAll]
  | cons i ids ih =>
    obtain ⟨hi, hn⟩ := List.nodup_cons.mp hn
    have hd : ∀ j ∈ ids, isDirty j (runPhase s (.wb i)) = isDirty j s := by
      intro j hj
      have hji : j ≠ i := fun e => hi (e ▸ hj)
      simp only [runPhase, phaseAction, steadyTurn_eq, isDirty, dirty_and_not_twoPow]
      simp [hji]
    have hf : ids.filter (isDirty · (runPhase s (.wb i))) = ids.filter (isDirty · s) :=
      List.filter_congr fun j hj => hd j hj
    rw [List.map_cons, List.foldl_cons, ih hn, hf]
    have h4 : (isDirty 4 (runPhase s (.wb i)) = true ∧ 4 ∈ ids) ↔ (isDirty 4 s = true ∧ 4 ∈ ids) :=
      and_congr_left fun h => by rw [hd 4 h]
    simp only [h4]
    simp only [runPhase, phaseAction, steadyTurn_eq, isDirty_seq, readReg_seq]
    congr 1
    · cases ids <;> simp [List.getLast?_cons]
    · change (if isDirty 4 s = true ∧ 4 ∈ ids then divaOf (readReg 4 s)
          else if isDirty i s = true ∧ i = 4 then divaOf (readReg 4 s) else s.lastDiva) = _
      by_cases h : isDirty 4 s = true <;> by_cases hm : 4 ∈ ids <;> by_cases hi4 : i = 4 <;> simp_all
      exact fun e => absurd e.symm hi4
    · change (s.events ++ if isDirty i s then [Event.write (readReg i s)] else []) ++
          (ids.filter (isDirty · s)).map (fun j => .write (readReg j s)) = _
      cases h : isDirty i s <;> simp [h]

/-- The steady pass (R158): the dirty registers are sent in order, and nothing is dirty afterwards. -/
theorem steadyPass_eq (s : State) :
    steadyPass s =
      { s with
        seq := .wb 0
        dirty := 0
        lastDiva := if isDirty 4 s then divaOf (readReg 4 s) else s.lastDiva
        events := s.events ++
          (([6, 5, 4, 3, 2, 1, 0] : List (Fin 7)).filter (isDirty · s)).map fun i => .write (readReg i s) } := by
  have h := turns_eq [6, 5, 4, 3, 2, 1, 0] (by decide) s
  have hd : clearAll [6, 5, 4, 3, 2, 1, 0] s.dirty = 0 := dirty_ext fun j => by
    rw [clearAll_getLsbD, decide_eq_true (show j ∈ _ by revert j; decide)]
    simp
  rw [hd] at h
  rw [steadyPass, show steadyPhases = ([6, 5, 4, 3, 2, 1, 0] : List (Fin 7)).map SeqPhase.wb from rfl, h]
  simp

/-! ### The coupling step -/

theorem couple_frame (s : State) : couple s = { s with dirty := (couple s).dirty } := by
  unfold couple; split <;> rfl

@[simp] theorem readReg_couple (j : Fin 7) (s : State) : readReg j (couple s) = readReg j s := by
  rw [couple_frame]; rfl

/-- Coupling adds register 0 alone (R157). -/
theorem isDirty_couple (j : Fin 7) (s : State) :
    isDirty j (couple s) = (isDirty j s || (decide (j = 0) && forcesReg0 s)) := by
  unfold couple
  cases h : forcesReg0 s
  · simp
  · rw [if_pos rfl, isDirty_setDirty, Bool.and_true]

/-- The rule's two policies in one formula (R157). -/
theorem forcesReg0_eq (s : State) :
    forcesReg0 s = (isDirty 1 s || (isDirty 4 s && (s.cfg.coupling == .unconditional || divaOf (readReg 4 s) != s.lastDiva))) := by
  unfold forcesReg0
  cases s.cfg.coupling
  · simp
  · rw [show (Coupling.divaChange == Coupling.unconditional) = false from rfl, Bool.false_or]

/-! ### The write-back -/

/-- A write-back outside mode COLD (R152, R157, R158). -/
theorem writeBack_eq_afterFlush {s : State} (h : s.mode ≠ .cold) : writeBack s = afterFlush s := by
  have hf : ([6, 5, 4, 3, 2, 1, 0] : List (Fin 7)).filter (isDirty · (couple s)) = sentByFlush s := by
    unfold sentByFlush
    refine List.filter_congr fun j _ => ?_
    rw [isDirty_couple, forcesReg0_eq]
    rfl
  have h4 : isDirty 4 (couple s) = isDirty 4 s := by rw [isDirty_couple]; simp
  simp only [writeBack, if_neg h, steadyPass_eq, hf, h4, readReg_couple]
  rw [couple_frame]
  rfl

/-- The cold-start pass (R153 to R155): every register but 6 is sent, register 4 masked, and all are dirty afterwards. -/
theorem coldPass_eq (s : State) :
    coldPass s =
      { s with
        dirty := 0b1111111
        mode := .steady
        seq := .csR0
        lastDiva := divaOf (maskedReg4 s)
        events := s.events ++
          [.write (readReg 5 s), .delay s.cfg.settleMs, .write (maskedReg4 s), .write (readReg 3 s), .write (readReg 2 s),
           .write (readReg 1 s), .write (readReg 0 s)] } := by
  simp [coldPass, coldPhases, runPhase, phaseAction, endCold, setAllDirty, sendReg, sendMaskedReg4, emit, maskedReg4, readReg]

/-- A write-back in mode COLD is the cold-start pass and then that of a block with every register dirty (R152). -/
theorem writeBack_cold {s : State} (h : s.mode = .cold) : writeBack s = afterFlush (coldPass s) := by
  rw [← writeBack_eq_afterFlush (by rw [coldPass_eq]; simp)]
  simp only [writeBack, if_pos h]
  rw [if_neg (by rw [coldPass_eq]; simp)]

end Sys2Proof.Machine
end

