-- ==== Sys2Proof/Laws/Commands.lean ====
section
/-! SUPPORT. What each command can do, said once: what the shared operations keep, and the inversion of `exec`. A proof over all
commands goes by the cases of `CommandEffect` and never unfolds a meaning. -/

namespace Sys2Proof.Machine

/-! ### What the shared operations keep -/

/-- A write-back changes only the dirty mask, `seq`, the mode (COLD to STEADY), `lastDiva` and the events, which it adds to. -/
theorem writeBack_keeps (s : State) :
    ∃ es : List Event, writeBack s =
      { s with
        dirty := 0, seq := .idle, mode := if s.mode = .cold then .steady else s.mode,
        lastDiva := (writeBack s).lastDiva, events := s.events ++ es } := by
  by_cases h : s.mode = .cold
  · rw [writeBack_cold h, coldPass_eq]
    simp only [afterFlush, h, if_true, List.append_assoc]
    exact ⟨_, rfl⟩
  · rw [writeBack_eq_afterFlush h]
    exact ⟨_, by simp only [afterFlush, if_neg h]; rfl⟩

theorem readReg_writeBack (j : Fin 7) (s : State) : readReg j (writeBack s) = readReg j s := by
  obtain ⟨_, h⟩ := writeBack_keeps s
  rw [h]; rfl

/-- `t` is `s` but for the shadow words and the dirty mask. -/
def OnlyShadow (s t : State) : Prop := ∃ (rs : Vector Word 7) (d : BitVec 7), t = { s with regs := rs, dirty := d }

theorem OnlyShadow.refl (s : State) : OnlyShadow s s := ⟨_, _, rfl⟩

theorem OnlyShadow.setField {s t : State} (h : OnlyShadow s t) (reg hi lo value : Nat) :
    OnlyShadow s (setField reg hi lo value t) := by
  obtain ⟨rs, d, rfl⟩ := h
  exact ⟨_, _, setField_frame reg hi lo value _⟩

theorem selectOutputs_keeps (ena enb : BitVec 1) (s : State) : OnlyShadow s (selectOutputs ena enb s) :=
  ((OnlyShadow.refl s).setField ..).setField ..

theorem setPowerFields_keeps (code : Nat) (port : BitVec 2) (s : State) : OnlyShadow s (setPowerFields code port s) := by
  have a : OnlyShadow s (if port = 0 ∨ port = 2 then setField 4 4 3 code s else s) := by
    split
    · exact (OnlyShadow.refl s).setField ..
    · exact .refl s
  unfold setPowerFields
  dsimp only
  split
  · exact a.setField ..
  · exact a

theorem programDividers_keeps (d : DividerState) (s : State) : OnlyShadow s (programDividers d s) :=
  ((((OnlyShadow.refl s).setField ..).setField ..).setField ..).setField ..

theorem sampleLD_keeps (s : State) : ∃ ins k, (sampleLD s).2 = { s with ldInputs := ins, ldDraws := k } := by
  unfold sampleLD
  split <;> exact ⟨_, _, rfl⟩

/-- No two faults share a code (60_exceptions.md R201), so `(code, H)` is the whole record. -/
theorem faultPair_injective : Function.Injective faultPair := by
  intro ⟨c, h⟩ ⟨d, k⟩ e
  cases c <;> cases d <;> simp_all [faultPair, faultNumber]

/-! ### The inversion of exec -/

/-- When a command raises a fault, and which (60_exceptions.md R201, R207). -/
def Raises (i : Instr) (s : State) (c : FaultCode) : Prop :=
  (c = .uninit ∧ s.mode = .uninit ∧
    (i.op = .setf ∨ i.op = .getf ∨ i.op = .flush ∨ i.op = .outsel ∨ i.op = .outpwr ∨ i.op = .setfreq)) ∨
  (c = .solveDomain ∧ ∃ targetHz refHz : BitVec 64, (targetHz = 0 ∨ refHz = 0) ∧
    (i = .solve targetHz refHz ∨ (i = .setfreq targetHz refHz ∧ s.mode ≠ .uninit))) ∨
  (c = .projDomain ∧ ∃ (n : Word) (frac modulus : BitVec 16) (diva : BitVec 8) (refHz : BitVec 64),
    i = .proj n frac modulus diva refHz ∧ (modulus = 0 ∨ refHz = 0))

/-- The state a command ends in, one case for each shape of effect. -/
inductive CommandEffect (i : Instr) (s : State) : State → Prop
  | raised (c : FaultCode) (h : Raises i s c) : CommandEffect i s { s with fault := some { code := c, header := i.header } }
  | answered (ws : List Word) (len : ws.length = responseWords i.op)
      (h : i.op = .solve ∨ i.op = .proj ∨ (i.op = .getf ∧ s.mode ≠ .uninit)) :
      CommandEffect i s { s with responses := s.responses ++ ws }
  | sampled (h : i = .lockq) : CommandEffect i s (respond [(BitVec.ofBool (sampleLD s).1).setWidth 32] (sampleLD s).2)
  | fieldSet (reg hi lo : BitVec 8) (value : Word) (h : i = .setf reg hi lo value) (m : s.mode ≠ .uninit) :
      CommandEffect i s (setField reg.toNat hi.toNat lo.toNat value.toNat s)
  | ignored (h : i.op = .outpwr) (m : s.mode ≠ .uninit) : CommandEffect i s s
  | coldStarted (h : i = .reset) : CommandEffect i s (writeBack (loadDefaults s))
  | flushed (h : i = .flush) (m : s.mode ≠ .uninit) : CommandEffect i s (writeBack s)
  | selected (ena enb : BitVec 1) (h : i = .outsel ena enb) (m : s.mode ≠ .uninit) :
      CommandEffect i s (writeBack (selectOutputs ena enb s))
  | powered (level : BitVec 8) (port : BitVec 2) (code : Nat) (h : i = .outpwr level port)
      (c : powerCode level.toInt = some code) (p : port ≠ 3) (m : s.mode ≠ .uninit) :
      CommandEffect i s (writeBack (setPowerFields code port s))
  | programmed (targetHz refHz : BitVec 64) (h : i = .setfreq targetHz refHz) (t : targetHz ≠ 0) (r : refHz ≠ 0)
      (m : s.mode ≠ .uninit) :
      CommandEffect i s (writeBack (programDividers (solve targetHz.toNat refHz.toNat) s))

/-- Every command answers a next state, in one of the shapes above. -/
theorem exec_answers (i : Instr) (s : State) : ∃ t, exec i s = .next t ∧ CommandEffect i s t := by
  cases i with
  | solve targetHz refHz =>
    simp only [exec, execSolve]
    split
    · exact ⟨_, rfl, .raised .solveDomain (.inr (.inl ⟨rfl, targetHz, refHz, ‹_›, .inl rfl⟩))⟩
    · exact ⟨_, rfl, .answered _ (by simp [solveResponse, splitWords, responseWords, Instr.op]) (.inl rfl)⟩
  | proj n frac modulus diva refHz =>
    simp only [exec, execProj]
    split
    · exact ⟨_, rfl, .raised .projDomain (.inr (.inr ⟨rfl, n, frac, modulus, diva, refHz, rfl, ‹_›⟩))⟩
    · exact ⟨_, rfl, .answered _ (by simp [projectResponse, splitWords, responseWords, Instr.op]) (.inr (.inl rfl))⟩
  | reset => exact ⟨_, rfl, .coldStarted rfl⟩
  | setf reg hi lo value =>
    simp only [exec, execSetf, unlessUninit]
    split
    · exact ⟨_, rfl, .raised .uninit (.inl ⟨rfl, ‹_›, by simp [Instr.op]⟩)⟩
    · exact ⟨_, rfl, .fieldSet _ _ _ _ rfl ‹_›⟩
  | getf reg hi lo =>
    simp only [exec, execGetf, unlessUninit]
    split
    · exact ⟨_, rfl, .raised .uninit (.inl ⟨rfl, ‹_›, by simp [Instr.op]⟩)⟩
    · exact ⟨_, rfl, .answered _ rfl (.inr (.inr ⟨rfl, ‹_›⟩))⟩
  | flush =>
    simp only [exec, execFlush, unlessUninit]
    split
    · exact ⟨_, rfl, .raised .uninit (.inl ⟨rfl, ‹_›, by simp [Instr.op]⟩)⟩
    · exact ⟨_, rfl, .flushed rfl ‹_›⟩
  | outsel ena enb =>
    simp only [exec, execOutsel, unlessUninit]
    split
    · exact ⟨_, rfl, .raised .uninit (.inl ⟨rfl, ‹_›, by simp [Instr.op]⟩)⟩
    · exact ⟨_, rfl, .selected ena enb rfl ‹_›⟩
  | outpwr level port =>
    simp only [exec, execOutpwr, unlessUninit]
    split
    · exact ⟨_, rfl, .raised .uninit (.inl ⟨rfl, ‹_›, by simp [Instr.op]⟩)⟩
    · split
      · exact ⟨_, rfl, .ignored rfl ‹_›⟩
      · split
        · exact ⟨_, rfl, .ignored rfl ‹_›⟩
        · exact ⟨_, rfl, .powered level port _ rfl ‹_› ‹_› ‹_›⟩
  | setfreq targetHz refHz =>
    simp only [exec, execSetfreq, unlessUninit]
    split
    · exact ⟨_, rfl, .raised .uninit (.inl ⟨rfl, ‹_›, by simp [Instr.op]⟩)⟩
    · split
      · exact ⟨_, rfl, .raised .solveDomain (.inr (.inl ⟨rfl, targetHz, refHz, ‹_›, .inr ⟨rfl, ‹_›⟩⟩))⟩
      · rename_i h
        exact ⟨_, rfl, .programmed _ _ rfl (fun e => h (.inl e)) (fun e => h (.inr e)) ‹_›⟩
  | lockq => exact ⟨_, rfl, .sampled rfl⟩

/-- The inversion: what `exec` answers is one of the shapes. -/
theorem exec_cases {i : Instr} {s t : State} (h : exec i s = .next t) : CommandEffect i s t := by
  obtain ⟨t', h', c⟩ := exec_answers i s
  rw [h] at h'
  cases h'
  exact c

/-- What no command touches, and what the run has shown only grows. -/
theorem exec_keeps {i : Instr} {s t : State} (h : exec i s = .next t) :
    t.cfg = s.cfg ∧ t.inbox = s.inbox ∧ s.events <+: t.events ∧ s.responses <+: t.responses := by
  have wb : ∀ (rs : Vector Word 7) (d : BitVec 7),
      (writeBack { s with regs := rs, dirty := d }).cfg = s.cfg ∧ (writeBack { s with regs := rs, dirty := d }).inbox = s.inbox ∧
      s.events <+: (writeBack { s with regs := rs, dirty := d }).events ∧
      s.responses <+: (writeBack { s with regs := rs, dirty := d }).responses := by
    intro rs d
    obtain ⟨es, e⟩ := writeBack_keeps { s with regs := rs, dirty := d }
    rw [e]
    exact ⟨rfl, rfl, List.prefix_append _ _, List.prefix_rfl⟩
  cases exec_cases h with
  | raised => exact ⟨rfl, rfl, List.prefix_rfl, List.prefix_rfl⟩
  | answered => exact ⟨rfl, rfl, List.prefix_rfl, List.prefix_append _ _⟩
  | sampled =>
    obtain ⟨_, _, e⟩ := sampleLD_keeps s
    rw [e]; exact ⟨rfl, rfl, List.prefix_rfl, List.prefix_append _ _⟩
  | fieldSet => rw [setField_frame]; exact ⟨rfl, rfl, List.prefix_rfl, List.prefix_rfl⟩
  | ignored => exact ⟨rfl, rfl, List.prefix_rfl, List.prefix_rfl⟩
  | coldStarted =>
    obtain ⟨es, e⟩ := writeBack_keeps (loadDefaults s)
    rw [e]
    exact ⟨rfl, rfl, List.prefix_append _ _, List.prefix_rfl⟩
  | flushed => exact wb s.regs s.dirty
  | selected ena enb => obtain ⟨_, _, e⟩ := selectOutputs_keeps ena enb s; rw [e]; exact wb _ _
  | powered _ port code => obtain ⟨_, _, e⟩ := setPowerFields_keeps code port s; rw [e]; exact wb _ _
  | programmed => obtain ⟨_, _, e⟩ := programDividers_keeps _ s; rw [e]; exact wb _ _

end Sys2Proof.Machine
end

