-- ==== Sys2Proof/Laws/PerInstr.lean ====
section
/-! SUPPORT. The family Framing, over every command as syntax: its words are the header and as many operand words as its opcode fixes
(30_encoding.md R70, R81), and its header has the bits its row of the opcode map fixes (R78). -/

namespace Sys2Proof.Laws.Framing

/-- The command's length is that of its opcode, and its header is one its own row of the opcode map matches. -/
def Statement (i : Instr) : Prop :=
  (encode i).length = commandLength i ∧ i.header &&& opMask i.op = opMatch i.op

/-- A header made of a row's opcode below bits the row's mask leaves out matches that row. -/
theorem header_matches (high : BitVec 24) (r : Op) (h : high &&& (opMask r).extractLsb' 8 24 = 0)
    (m : (opMask r).extractLsb' 0 8 = BitVec.allOnes 8) : (high ++ opCode r) &&& opMask r = opMatch r := by
  have split : opMask r = (opMask r).extractLsb' 8 24 ++ (opMask r).extractLsb' 0 8 := by cases r <;> rfl
  rw [split, BitVec.and_append, h, m, BitVec.and_allOnes, opMatch]
  rw [BitVec.setWidth_eq_append (by decide)]
  rfl

theorem solve (targetHz refHz : BitVec 64) : Statement (.solve targetHz refHz) :=
  ⟨rfl, header_matches 0#24 .solve (by decide) (by decide)⟩

theorem proj (n : Word) (frac modulus : BitVec 16) (diva : BitVec 8) (refHz : BitVec 64) :
    Statement (.proj n frac modulus diva refHz) :=
  ⟨rfl, header_matches (0#16 ++ diva) .proj (by revert diva; decide) (by decide)⟩

theorem reset : Statement .reset := ⟨rfl, by decide⟩

theorem setf (reg hi lo : BitVec 8) (value : Word) : Statement (.setf reg hi lo value) :=
  ⟨rfl, header_matches (lo ++ hi ++ reg) .setf (by simp [opMask]) (by decide)⟩

theorem getf (reg hi lo : BitVec 8) : Statement (.getf reg hi lo) :=
  ⟨rfl, header_matches (lo ++ hi ++ reg) .getf (by simp [opMask]) (by decide)⟩

theorem flush : Statement .flush := ⟨rfl, by decide⟩

theorem outsel (ena enb : BitVec 1) : Statement (.outsel ena enb) := ⟨rfl, by revert ena enb; decide⟩

theorem outpwr (level : BitVec 8) (port : BitVec 2) : Statement (.outpwr level port) :=
  ⟨rfl, by revert level port; decide⟩

theorem setfreq (targetHz refHz : BitVec 64) : Statement (.setfreq targetHz refHz) :=
  ⟨rfl, header_matches 0#24 .setfreq (by decide) (by decide)⟩

theorem lockq : Statement .lockq := ⟨rfl, by decide⟩

end Sys2Proof.Laws.Framing
end

