-- ==== Sys2Proof/Laws/Port.lean ====
section
/-! SUPPORT. What one step can do, said once: the inversion of `step`, by which an invariant of every step is proved. -/

namespace Sys2Proof.Machine

/-- One phase of the sequencer keeps all but the dirty mask, `seq`, the mode, `lastDiva` and the events, and adds at most one
event (R41). -/
theorem sequencerStep_keeps (s : State) :
    ∃ (d : BitVec 7) (q : SeqPhase) (m : Mode) (l : BitVec 3) (es : List Event), es.length ≤ 1 ∧
      sequencerStep s = { s with dirty := d, seq := q, mode := m, lastDiva := l, events := s.events ++ es } := by
  have plain : ∀ (e : Event) (q : SeqPhase) (l : BitVec 3), ∃ (d : BitVec 7) (q' : SeqPhase) (m : Mode) (l' : BitVec 3) (es : List Event),
      es.length ≤ 1 ∧ { s with seq := q, lastDiva := l, events := s.events ++ [e] } =
        { s with dirty := d, seq := q', mode := m, lastDiva := l', events := s.events ++ es } :=
    fun e q l => ⟨_, _, _, _, [e], le_rfl, rfl⟩
  unfold sequencerStep
  match h : s.seq with
  | .idle => exact ⟨_, _, _, _, [], by simp, by simp [phaseAction, leavePhase, h]; rfl⟩
  | .csR5 => simp only [phaseAction, leavePhase, sendReg, emit_seq, h]; exact plain _ _ _
  | .csDelay => simp only [phaseAction, leavePhase, emit_seq, h]; exact plain _ _ _
  | .csR4 => simp only [phaseAction, leavePhase, sendMaskedReg4, emit_seq, h]; exact plain _ _ _
  | .csR3 => simp only [phaseAction, leavePhase, sendReg, emit_seq, h]; exact plain _ _ _
  | .csR2 => simp only [phaseAction, leavePhase, sendReg, emit_seq, h]; exact plain _ _ _
  | .csR1 => simp only [phaseAction, leavePhase, sendReg, emit_seq, h]; exact plain _ _ _
  | .csR0 =>
    simp only [phaseAction, leavePhase, sendReg, emit_seq, h]
    rw [couple_frame]
    exact ⟨_, _, _, _, [_], le_rfl, rfl⟩
  | .wb i =>
    simp only [phaseAction, leavePhase, steadyTurn_eq, h]
    have len : (if isDirty i s then [Event.write (readReg i s)] else []).length ≤ 1 := by split <;> simp
    split <;> exact ⟨_, _, _, _, _, len, rfl⟩

/-- What a step that goes on can be: a power-on reset, a wait, an illegal header, a command run, a command abandoned by a power-on
reset, or a phase of a write-back in progress. -/
inductive StepEffect (s : State) : State → Prop
  | poweredOn (rest : List HostInput) : StepEffect s (powerOn rest s)
  | waited : StepEffect s s
  | illegal (h : Word) (ready : s.seq = .idle ∧ s.fault = none) :
      StepEffect s { s with fault := some { code := .illegal, header := h }, inbox := s.inbox.drop 1 }
  | ran (i : Instr) (t : State) (ready : s.seq = .idle ∧ s.fault = none)
      (e : exec i { s with inbox := s.inbox.drop (commandLength i) } = .next t) : StepEffect s t
  | abandoned (i : Instr) (t : State) (k : Nat) (rest : List HostInput) (ready : s.seq = .idle ∧ s.fault = none)
      (e : exec i { s with inbox := s.inbox.drop (commandLength i) } = .next t) :
      StepEffect s (abandon k rest { s with inbox := s.inbox.drop (commandLength i) } t)
  | phase (busy : s.seq ≠ .idle) : StepEffect s (sequencerStep s)

/-- The inversion of `step`. -/
theorem step_cases {s t : State} (h : step s = .next t) : StepEffect s t := by
  have body : ∀ {t : State}, (match s.fault with
      | some r => stayFaulted r s
      | none => if s.seq = SeqPhase.idle then takeCommand s else .next (sequencerStep s)) = .next t → StepEffect s t := by
    intro t h
    split at h
    · unfold stayFaulted at h
      split at h
      · cases h; exact .poweredOn _
      · cases h
    · rename_i hf
      split at h
      · rename_i hs
        unfold takeCommand at h
        split at h
        · cases h; exact .illegal _ ⟨hs, hf⟩
        · rename_i i rest hd
          obtain ⟨t', e, -⟩ := exec_answers i { s with inbox := s.inbox.drop (commandLength i) }
          simp only [perform, e] at h
          split at h <;> cases h
          · exact .abandoned i _ _ _ ⟨hs, hf⟩ e
          all_goals exact .ran i _ ⟨hs, hf⟩ e
        · unfold await at h
          split at h <;> cases h
          · exact .poweredOn _
          · exact .waited
      · cases h; exact .phase ‹_›
  unfold step stepPort at h
  split at h
  · cases h; exact .poweredOn _
  · cases h; exact .poweredOn _
  · exact body h
  · exact body h

end Sys2Proof.Machine
end

