-- ==== Sys2Proof/Laws/Solver.lean ====
section
/-! SUPPORT. What the solver's parts compute (spec/40_solver.md R102 to R105), each once. -/

namespace Sys2Proof.Machine

/-- Step 2 (R102): the doublings stop at the first frequency not below the bound, if the fuel reaches it. -/
theorem doubleUp_spec (fuel v k : Nat) (h : vcoLow ≤ v * 2 ^ fuel) :
    ∃ j ≤ fuel, doubleUp fuel v k = (v * 2 ^ j, k + j) ∧ vcoLow ≤ v * 2 ^ j ∧ (0 < j → v * 2 ^ (j - 1) < vcoLow) := by
  induction fuel generalizing v k with
  | zero => exact ⟨0, le_refl _, by simp [doubleUp], by simpa using h, by simp⟩
  | succ fuel ih =>
    by_cases hv : v < vcoLow
    · obtain ⟨j, hj, he, hb, hp⟩ := ih (2 * v) (k + 1) (by rw [pow_succ] at h; linarith)
      refine ⟨j + 1, by omega, ?_, ?_, fun _ => ?_⟩
      · rw [doubleUp, if_pos hv, he, pow_succ]; congr 1 <;> ring
      · rw [pow_succ]; linarith
      · cases j with
        | zero => simpa using hv
        | succ j =>
          have := hp (by omega)
          simp only [Nat.add_sub_cancel, pow_succ] at this ⊢
          linarith
    · exact ⟨0, by omega, by simp [doubleUp, hv], by simpa using hv, by simp⟩

/-- For a positive target 32 doublings are enough (R102). -/
theorem doubleUp_reaches {v : Nat} (h : 0 < v) : vcoLow ≤ v * 2 ^ 32 :=
  le_trans (by decide) (Nat.le_mul_of_pos_left (2 ^ 32) h)

/-- The rounded numerator is at most the modulus where the remainder is below 1, so the truncation to 12 bits does nothing
(R104). -/
theorem rounded_le {p q m : Nat} (hp : p < q) : (2 * (p * m) + q) / (2 * q) ≤ m := by
  have : 2 * (p * m) + q < (m + 1) * (2 * q) := by
    have := Nat.mul_le_mul_right m hp.le
    nlinarith
  exact Nat.lt_succ_iff.mp ((Nat.div_lt_iff_lt_mul (by omega)).mpr this)

theorem roundedNumerator_eq {p q m : Nat} (hp : p < q) (hm : m ≤ 4095) :
    roundedNumerator p q m = (2 * (p * m) + q) / (2 * q) :=
  Nat.mod_eq_of_lt (lt_of_le_of_lt (rounded_le hp) (by omega))

/-- The integers of `roundedNumerator` are R104's `round(frac * m)` with frac = p/q. -/
theorem roundedNumerator_eq_roundHalfUp {p q m : Nat} (hp : p < q) (hm : m ≤ 4095) :
    roundedNumerator p q m = roundHalfUp ((p : Rat) / q * m) := by
  have hq : (0 : Rat) < q := by exact_mod_cast (by omega : 0 < q)
  have h : (p : Rat) / q * m + 1 / 2 = ((2 * (p * m) + q : Nat) : Rat) / ((2 * q : Nat) : Rat) := by
    push_cast; field_simp
  rw [roundedNumerator_eq hp hm, roundHalfUp, h, show ∀ x : Rat, x.floor = ⌊x⌋ from fun _ => rfl,
    Rat.floor_natCast_div_natCast]
  rfl

/-- A candidate's scaled error is its error |F/M - p/q| times q * M (R105). -/
theorem scaledError_eq {p q f m : Nat} (hq : 0 < q) (hm : 0 < m) :
    (scaledError p q { f := f, m := m } : Rat) = |(f : Rat) / m - (p : Rat) / q| * (q * m) := by
  have hq' : (0 : Rat) < q := by exact_mod_cast hq
  have hm' : (0 : Rat) < m := by exact_mod_cast hm
  have h : ((q * f : Nat) : Rat) - ((p * m : Nat) : Rat) = ((f : Rat) / m - (p : Rat) / q) * (q * m) := by
    push_cast; field_simp
  rw [← abs_of_pos (mul_pos hq' hm'), ← abs_mul, ← h, scaledError]
  rcases Nat.le_total (q * f) (p * m) with hle | hle
  · have : ((q * f : Nat) : Rat) ≤ ((p * m : Nat) : Rat) := by exact_mod_cast hle
    rw [Nat.sub_eq_zero_of_le hle, Nat.zero_add, Nat.cast_sub hle, abs_of_nonpos (by linarith)]; ring
  · have : ((p * m : Nat) : Rat) ≤ ((q * f : Nat) : Rat) := by exact_mod_cast hle
    rw [Nat.sub_eq_zero_of_le hle, Nat.add_zero, Nat.cast_sub hle, abs_of_nonneg (by linarith)]

/-- The search below modulus `k + 2` (R104, R105): it ends with the candidate in hand or with one it visited, none visited is better,
and only a larger modulus is as good. -/
theorem searchBelow_spec (p q k : Nat) (best : Candidate) (hb : k + 2 ≤ best.m) :
    (searchBelow p q k best = best ∨
      (searchBelow p q k best = candidate p q (searchBelow p q k best).m ∧ 2 ≤ (searchBelow p q k best).m ∧
        (searchBelow p q k best).m ≤ k + 1 ∧
        scaledError p q (searchBelow p q k best) * best.m < scaledError p q best * (searchBelow p q k best).m)) ∧
    ∀ m, 2 ≤ m → m ≤ k + 1 →
      scaledError p q (searchBelow p q k best) * m ≤ scaledError p q (candidate p q m) * (searchBelow p q k best).m ∧
      ((searchBelow p q k best).m < m →
        scaledError p q (searchBelow p q k best) * m < scaledError p q (candidate p q m) * (searchBelow p q k best).m) := by
  induction k generalizing best with
  | zero => exact ⟨.inl rfl, fun m h2 h1 => absurd h1 (by omega)⟩
  | succ k ih =>
    rw [searchBelow]
    split
    · rename_i h0
      exact ⟨.inl rfl, fun m _ _ => ⟨by rw [h0]; simp, fun h => absurd h (by omega)⟩⟩
    · split
      · rename_i hlt
        have hc : (candidate p q (k + 2)).m = k + 2 := rfl
        obtain ⟨hr, hmin⟩ := ih (candidate p q (k + 2)) (by omega)
        generalize searchBelow p q k (candidate p q (k + 2)) = r at hr hmin
        rcases hr with rfl | ⟨he, h2, h1, hs⟩
        · refine ⟨.inr ⟨rfl, by omega, by omega, by rwa [hc]⟩, fun m hm2 hm1 => ?_⟩
          rcases Nat.lt_or_ge m (k + 2) with h | h
          · exact hmin m hm2 (by omega)
          · have : m = k + 2 := by omega
            subst this; exact ⟨le_refl _, fun h => absurd h (by omega)⟩
        · rw [hc] at hs
          have hpos : 0 < k + 2 := by omega
          refine ⟨.inr ⟨he, h2, by omega, ?_⟩, fun m hm2 hm1 => ?_⟩
          · refine Nat.lt_of_mul_lt_mul_right (a := k + 2) ?_
            calc scaledError p q r * best.m * (k + 2) = scaledError p q r * (k + 2) * best.m := by ring
              _ ≤ scaledError p q (candidate p q (k + 2)) * r.m * best.m := Nat.mul_le_mul_right _ hs.le
              _ = scaledError p q (candidate p q (k + 2)) * best.m * r.m := by ring
              _ < scaledError p q best * (k + 2) * r.m := Nat.mul_lt_mul_of_pos_right hlt (by omega)
              _ = scaledError p q best * r.m * (k + 2) := by ring
          · rcases Nat.lt_or_ge m (k + 2) with h | h
            · exact hmin m hm2 (by omega)
            · have : m = k + 2 := by omega
              subst this; exact ⟨hs.le, fun _ => hs⟩
      · rename_i hge
        rw [Nat.not_lt] at hge
        obtain ⟨hr, hmin⟩ := ih best (by omega)
        generalize searchBelow p q k best = r at hr hmin
        rcases hr with rfl | ⟨he, h2, h1, hs⟩
        · refine ⟨.inl rfl, fun m hm2 hm1 => ?_⟩
          rcases Nat.lt_or_ge m (k + 2) with h | h
          · exact hmin m hm2 (by omega)
          · have : m = k + 2 := by omega
            subst this; exact ⟨hge, fun h => absurd h (by omega)⟩
        · refine ⟨.inr ⟨he, h2, by omega, hs⟩, fun m hm2 hm1 => ?_⟩
          rcases Nat.lt_or_ge m (k + 2) with h | h
          · exact hmin m hm2 (by omega)
          · have : m = k + 2 := by omega
            subst this
            have hlt : scaledError p q r * (k + 2) < scaledError p q (candidate p q (k + 2)) * r.m := by
              refine Nat.lt_of_mul_lt_mul_right (a := best.m) ?_
              calc scaledError p q r * (k + 2) * best.m = scaledError p q r * best.m * (k + 2) := by ring
                _ < scaledError p q best * r.m * (k + 2) := Nat.mul_lt_mul_of_pos_right hs (by omega)
                _ = scaledError p q best * (k + 2) * r.m := by ring
                _ ≤ scaledError p q (candidate p q (k + 2)) * best.m * r.m := Nat.mul_le_mul_right _ hge
                _ = scaledError p q (candidate p q (k + 2)) * r.m * best.m := by ring
            exact ⟨hlt.le, fun _ => hlt⟩

/-- The whole search (R104, R105): a candidate of a modulus in 2..4095, none better, and only smaller moduli as good. -/
theorem search_spec (p q : Nat) :
    search p q = candidate p q (search p q).m ∧ 2 ≤ (search p q).m ∧ (search p q).m ≤ 4095 ∧
    ∀ m, 2 ≤ m → m ≤ 4095 →
      scaledError p q (search p q) * m ≤ scaledError p q (candidate p q m) * (search p q).m ∧
      ((search p q).m < m →
        scaledError p q (search p q) * m < scaledError p q (candidate p q m) * (search p q).m) := by
  have hc : (candidate p q 4095).m = 4095 := rfl
  obtain ⟨hr, hmin⟩ := searchBelow_spec p q 4093 (candidate p q 4095) (Nat.le_refl 4095)
  rw [show searchBelow p q 4093 (candidate p q 4095) = search p q from rfl] at hr hmin
  rcases hr with he | ⟨he, h2, h1, hs⟩
  · have hm : (search p q).m = 4095 := by rw [he, hc]
    refine ⟨by rw [hm, he], by omega, by omega, fun m hm2 hm1 => ?_⟩
    rcases Nat.lt_or_ge m 4095 with h | h
    · exact hmin m hm2 (by omega)
    · have : m = 4095 := by omega
      subst this; rw [he]; exact ⟨le_refl _, fun h => absurd h (by omega)⟩
  · rw [hc] at hs
    refine ⟨he, h2, by omega, fun m hm2 hm1 => ?_⟩
    rcases Nat.lt_or_ge m 4095 with h | h
    · exact hmin m hm2 (by omega)
    · have : m = 4095 := by omega
      subst this; exact ⟨hs.le, fun _ => hs⟩

/-- The solver's parts put together: the doublings, the floor and the search on the remainder (R101 to R104). -/
theorem solve_parts {targetHz : Nat} (refHz : Nat) (h : 0 < targetHz) :
    ∃ j ≤ 32, vcoLow ≤ targetHz * 2 ^ j ∧ (0 < j → targetHz * 2 ^ (j - 1) < vcoLow) ∧
      solve targetHz refHz =
        { n := targetHz * 2 ^ j / refHz, frac := (search (targetHz * 2 ^ j % refHz) refHz).f,
          modulus := (search (targetHz * 2 ^ j % refHz) refHz).m, diva := j, rDiv := 1, fpfd := refHz } := by
  obtain ⟨j, hj, he, hb, hp⟩ := doubleUp_spec 32 targetHz 0 (doubleUp_reaches h)
  exact ⟨j, hj, hb, hp, by simp [solve, he, rDiv]⟩

end Sys2Proof.Machine
end

