-- ==== Sys2Proof/Tests/Slice0.lean ====
section
/-! SUPPORT. The model's own tests: the assembler's fit check, decoding of hand-written words, at most two single steps per command with
results from spec/95_test_vectors.md, and a witness for the hypotheses of each obligation. -/

namespace Sys2Proof.Tests

open Sys2Proof.Machine

/-! ### Small states -/

/-- Parameters with the example image `IMG_A` (95_test_vectors.md section 0). -/
def paramsA : Config := { image := #v[0, 0, 0, 0, 0, 0, 0], settleMs := 20, coupling := .unconditional }

/-- Parameters with `IMG_B`: register 4 is 0x00000124. -/
def paramsB : Config := { image := #v[0, 0, 0, 0, 0x24, 0, 0], settleMs := 20, coupling := .unconditional }

/-- `S_A`, the state RESET leaves with `IMG_A`, with nothing shown yet. -/
def sA : State :=
  { regs := #v[0, 1, 2, 3, 4, 5, 6], dirty := 0, mode := .steady, seq := .idle, lastDiva := 0, fault := none, cfg := paramsA,
    inbox := [], ldInputs := [true], ldDraws := 0, events := [], responses := [] }

/-- Power-on with the parameters `c`. -/
def fresh (c : Config) : State :=
  { sA with regs := c.defaultImage, dirty := 0b1111111, mode := .uninit, cfg := c }

/-- `S_A` with the words `ws` offered, then `more`. -/
def offering (ws : List Word) (more : List HostInput := []) : State := { sA with inbox := ws.map .word ++ more }

/-- The state a command or a step answers. -/
def nextOf : Result → Option State
  | .next t => some t
  | .fault _ | .refused _ => none

/-! ### The assembler's fit check (30_encoding.md R82): an ill-formed line for each check -/

theorem test_wellFormed_setf :
    AsmLine.wellFormed (.setf 255 255 255 0xFFFFFFFF) = true ∧ AsmLine.wellFormed (.setf 256 22 20 5) = false ∧
    AsmLine.wellFormed (.setf 4 256 20 5) = false ∧ AsmLine.wellFormed (.setf 4 22 256 5) = false ∧
    AsmLine.wellFormed (.setf 4 22 20 0x100000000) = false := by decide

theorem test_wellFormed_getf :
    AsmLine.wellFormed (.getf 255 255 255) = true ∧ AsmLine.wellFormed (.getf 256 0 0) = false ∧
    AsmLine.wellFormed (.getf 0 256 0) = false ∧ AsmLine.wellFormed (.getf 0 0 256) = false := by decide

theorem test_wellFormed_output :
    AsmLine.wellFormed (.outsel 1 1) = true ∧ AsmLine.wellFormed (.outsel 2 0) = false ∧
    AsmLine.wellFormed (.outsel 0 2) = false ∧ AsmLine.wellFormed (.outpwr (-128) 0) = true ∧
    AsmLine.wellFormed (.outpwr 127 0) = true ∧ AsmLine.wellFormed (.outpwr (-129) 0) = false ∧
    AsmLine.wellFormed (.outpwr 128 0) = false := by decide

theorem test_wellFormed_solver :
    AsmLine.wellFormed (.solve 0xFFFFFFFFFFFFFFFF 0xFFFFFFFFFFFFFFFF) = true ∧
    AsmLine.wellFormed (.solve 0x10000000000000000 1) = false ∧ AsmLine.wellFormed (.solve 1 0x10000000000000000) = false ∧
    AsmLine.wellFormed (.setfreq 0x10000000000000000 1) = false ∧ AsmLine.wellFormed (.setfreq 1 0x10000000000000000) = false ∧
    AsmLine.wellFormed (.proj 0x100000000 0 1 0 1) = false ∧ AsmLine.wellFormed (.proj 0 0x10000 1 0 1) = false ∧
    AsmLine.wellFormed (.proj 0 0 0x10000 0 1) = false ∧ AsmLine.wellFormed (.proj 0 0 1 0x100 1) = false ∧
    AsmLine.wellFormed (.proj 0 0 1 0 0x10000000000000000) = false := by decide

theorem test_wellFormed_pseudo :
    AsmLine.wellFormed (.setn 0xFFFFFFFF) = true ∧ AsmLine.wellFormed (.setn 0x100000000) = false ∧
    AsmLine.wellFormed (.setfrac 0x100000000) = false ∧ AsmLine.wellFormed (.setmod 0x100000000) = false ∧
    AsmLine.wellFormed (.setdiva 0x100000000) = false := by decide

/-- Texts the assembler refuses: a register above 255, a negative operand that is not a level, a name it has not. -/
theorem test_assembler_refuses_text :
    assembleText "SETF r256, 22, 20, 5".toList = none ∧ assembleText "OUTSEL -1, 0".toList = none ∧
    assembleText "SETG r1, 2, 3".toList = none ∧ assembleText "  ; only a comment".toList = some [] ∧
    assembleText "OUTPWR +2, NONE ; port 3".toList = some [0x00030206] := by decide

/-! ### Decoding: words written out from the formats R71 to R76, every field different -/

theorem test_decode_solve : decode [0x00000010, 0x00112233, 0x44556677, 0x8899AABB, 0xCCDDEEFF] =
    .command (.solve 0x4455667700112233 0xCCDDEEFF8899AABB) [] := by decide

theorem test_decode_setfreq : decode [0x00000012, 0x00112233, 0x44556677, 0x8899AABB, 0xCCDDEEFF, 0x00000007] =
    .command (.setfreq 0x4455667700112233 0xCCDDEEFF8899AABB) [0x00000007] := by decide

theorem test_decode_proj : decode [0x0000A511, 0x01234567, 0x89ABCDEF, 0x00112233, 0x44556677] =
    .command (.proj 0x01234567 0xCDEF 0x89AB 0xA5 0x4455667700112233) [] := by decide

theorem test_decode_bare_headers : decode [0x00000001] = .command .reset [] ∧ decode [0x00000002] = .command .flush [] ∧
    decode [0x00000007] = .command .lockq [] := by decide

/-- LO is [31:24], HI [23:16], REG [15:8]. -/
theorem test_decode_setf : decode [0b00010100_00010110_00000100_00000011, 0x00000005] = .command (.setf 4 22 20 5) [] ∧
    decode [0xFFFFFF03, 0x00000000] = .command (.setf 255 255 255 0) [] ∧ decode [0x14160403] = .incomplete := by decide

theorem test_decode_getf : decode [0b00001111_00011110_00000000_00000100] = .command (.getf 0 30 15) [] := by decide

/-- ENA is bit 8, ENB bit 9, and bit 10 is reserved. -/
theorem test_decode_outsel : decode [0b0000000000000000000000_0_1_00000101] = .command (.outsel 1 0) [] ∧
    decode [0b0000000000000000000000_1_0_00000101] = .command (.outsel 0 1) [] ∧
    decode [0x00000405] = .illegal 0x00000405 := by decide

/-- PORT is [17:16], LVL [15:8] signed, and bit 18 is reserved. -/
theorem test_decode_outpwr : decode [0b00000000000000_10_00000101_00000110] = .command (.outpwr 5 2) [] ∧
    decode [0x0000FC06] = .command (.outpwr 0xFC 0) [] ∧ (0xFC#8).toInt = -4 ∧
    decode [0x00040006] = .illegal 0x00040006 := by decide

/-- V-X1 to V-X6, V-L4, V-P12: illegal headers, and the opcodes next to the table's. -/
theorem test_decode_illegal :
    [0x00000000, 0x00000008, 0x0000000F, 0x00000013, 0x000000FF, 0x00000101, 0x80000010, 0x00000107, 0x00010011].all
      (fun h => decode [h, 0, 0, 0, 0] == .illegal h) = true := by decide

theorem test_decodeTableWord : decodeTableWord 32 0x14160403 = some (.setf 4 22 20 0) ∧
    decodeTableWord 40 0x0100000010 = some (.solve 1 0) ∧ decodeTableWord 8 0x07 = some .lockq := by decide

/-! ### One step each -/

/-- V-S6. -/
theorem test_solve_6GHz : (nextOf (exec (.solve 6000000000 66000000) sA)).map State.responses =
    some [0x0000005A, 0x00000000, 0x0FFC0E88, 0x00000000, 0x03EF1480, 0x00000000] := by decide

/-- V-S2: seven doublings. -/
theorem test_solve_23MHz : (nextOf (exec (.solve 23500000 66000000) (fresh paramsA))).map State.responses =
    some [0x0000002D, 0x00000000, 0x0FFC0934, 0x00000007, 0x03EF1480, 0x00000000] := by decide

/-- V-P9: the widest operands. -/
theorem test_proj_widest :
    (nextOf (exec (.proj 0xFFFFFFFF 0xFFFF 0xFFFF 0xFF 0xFFFFFFFFFFFFFFFF) sA)).map State.responses =
      some [0x00000000, 0xFFFF0001, 0xFFFFFFFF, 0x0000FFFE] := by decide

/-- V-P10: MOD = 0. -/
theorem test_proj_domain : (nextOf (exec (.proj 1 0 0 0 66000000) sA)).map State.fault =
    some (some { code := .projDomain, header := 0x00000011 }) := by decide

/-- V-R1: the cold start with both enables set in the image. -/
theorem test_reset_masks_register4 : (nextOf (exec .reset (fresh paramsB))).map State.events =
    some [.write 5, .delay 20, .write 4, .write 3, .write 2, .write 1, .write 0, .write 6, .write 5, .write 0x124, .write 3,
      .write 2, .write 1, .write 0] := by decide

/-- V-F14: the N field with its bounds reversed. -/
theorem test_setf_reversed : (nextOf (exec (.setf 0 15 30 90) sA)).map (fun t => (readReg 0 t, t.dirty)) =
    some (0x002D0000, 0b0000001) := by decide

/-- V-F9: a field across the tag is rejected whole. -/
theorem test_setf_across_tag : nextOf (exec (.setf 0 5 1 0x3F) sA) = some sA := by decide

/-- V-G6. -/
theorem test_getf_widest :
    (nextOf (exec (.getf 6 31 3) { sA with regs := sA.regs.set 6 0xFFFFFFFE })).map State.responses = some [0x1FFFFFFF] := by
  decide

/-- V-G4. -/
theorem test_getf_tag : (nextOf (exec (.getf 0 2 0) { sA with regs := sA.regs.set 0 7 })).map State.responses = some [0] := by
  decide

/-- V-W2: 6, 4, 1, and 0 by the coupling rule. -/
theorem test_flush_order :
    (nextOf (exec .flush { sA with regs := #v[0, 0x321, 2, 3, 0x100004, 5, 0xE], dirty := 0b1010010 })).map
      (fun t => (t.events, t.dirty, t.lastDiva)) =
      some ([.write 0xE, .write 0x100004, .write 0x321, .write 0], 0, 1) := by decide

/-- V-W5b under DIVA_CHANGE: register 4 alone. -/
theorem test_flush_divaChange :
    (nextOf (exec .flush { sA with dirty := 0b0010000, cfg := { paramsA with coupling := .divaChange } })).map State.events =
      some [.write 4] := by decide

/-- V-O1. -/
theorem test_outsel_both : (nextOf (exec (.outsel 1 1) sA)).map (fun t => (readReg 4 t, t.events)) =
    some (0x124, [.write 0x124, .write 0]) := by decide

/-- V-O7: the power codes stay. -/
theorem test_outsel_off : (nextOf (exec (.outsel 0 0) { sA with regs := sA.regs.set 4 0x17C })).map (readReg 4) =
    some 0x5C := by decide

/-- V-O5: level -1 on port B. -/
theorem test_outpwr_portB : (nextOf (exec (.outpwr 0xFF 1) { sA with regs := sA.regs.set 4 0x1FC })).map
    (fun t => (readReg 4 t, t.events)) = some (0x17C, [.write 0x17C, .write 0]) := by decide

/-- V-O6: PORT = 3. -/
theorem test_outpwr_none : nextOf (exec (.outpwr 2 3) sA) = some sA := by decide

/-- V-Q4: N = 120000 is truncated to 0xD4C0. -/
theorem test_setfreq_truncates : (nextOf (exec (.setfreq 6000000000 50000) sA)).map
    (fun t => (readReg 0 t, readReg 1 t, t.events)) =
    some (0x6A600000, 0x00007FF9, [.write 0x00007FF9, .write 0x6A600000]) := by decide

/-- V-Q7: F_UNINIT comes before F_SOLVE_DOMAIN. -/
theorem test_setfreq_uninit : (nextOf (exec (.setfreq 0 66000000) (fresh paramsA))).map State.fault =
    some (some { code := .uninit, header := 0x00000012 }) := by decide

/-- V-L3, V-L1: the sample, in UNINIT too. -/
theorem test_lockq : (nextOf (exec .lockq { fresh paramsA with ldInputs := [false] })).map State.responses = some [0] ∧
    (nextOf (exec .lockq sA)).map State.responses = some [1] := by decide

/-- V-X10: after a fault RESET is not taken. -/
theorem test_step_stopped : step { offering [0x00000001] with fault := some { code := .illegal, header := 0 } } =
    .fault (.stopped { code := .illegal, header := 0 }) := by rfl

/-- A word placed for the fetch is the command the next step runs: SETF r4, 22, 20 with VALUE 0, from a set field. -/
theorem test_withFetchWord :
    (nextOf (step (State.withFetchWord { sA with regs := sA.regs.set 4 0x500004 } 32 0x14160403))).map
      (fun t => (readReg 4 t, t.inbox)) = some (4, []) := by decide

/-! ### Witnesses: for each obligation with hypotheses, a state and operands that meet all of them -/

theorem test_witness_DecodedWordsAreTheEncoding :
    decode [0x14160403, 0x00000005, 0x00000002] = .command (.setf 4 22 20 5) [0x00000002] := by decide

/-- Every clause of `HeaderIllegal` at the ends of its range, and the legal headers next to them. -/
theorem test_witness_HeaderIllegal :
    (∀ h ∈ ([0x00000000, 0x00000008, 0x0000000F, 0x00000013, 0x000000FF, 0x00000101, 0x80000010, 0x00000405, 0x00040006,
      0x00010011] : List Word), HeaderIllegal h) ∧
    ∀ h ∈ ([0x00000007, 0x00000010, 0x00000305, 0x0003FF06, 0x0000FF11, 0xFFFFFF03] : List Word), ¬HeaderIllegal h := by
  simp [HeaderIllegal, opcodeOf]

theorem test_witness_IllegalHeaders : (offering [0x00000008]).seq = .idle ∧ (offering [0x00000008]).fault = none ∧
    (offering [0x00000008]).inbox = .word 0x00000008 :: [] ∧ HeaderIllegal 0x00000008 :=
  ⟨rfl, rfl, rfl, by decide⟩

theorem test_witness_OpcodeRows : (0x0000A511#32 &&& opMask .proj) = opMatch .proj := by decide

/-- Every bound of the fit check, refused just outside it and taken just inside. -/
theorem test_witness_Assembler :
    assembleLine (.setf 255 255 255 0xFFFFFFFF) ≠ none ∧ assembleLine (.setf 256 0 0 0) = none ∧
    assembleLine (.getf 255 255 255) ≠ none ∧ assembleLine (.outsel 1 1) ≠ none ∧
    assembleLine (.outpwr (-128) 3) ≠ none ∧ assembleLine (.outpwr 127 0) ≠ none ∧ assembleLine (.outpwr 128 0) = none ∧
    (0xFFFFFFFFFFFFFFFF < 2 ^ 64 ∧ 0 < 2 ^ 64) ∧
    assembleLine (.proj 0xFFFFFFFF 0xFFFF 0xFFFF 0xFF 0xFFFFFFFFFFFFFFFF) ≠ none := by decide

theorem test_witness_StepRuns :
    (offering [0x14160403, 5]).seq = .idle ∧ (offering [0x14160403, 5]).fault = none ∧
    decode (offeredWords (offering [0x14160403, 5]).inbox) = .command (.setf 4 22 20 5) [] ∧
    ∀ (k : Nat) (more : List HostInput),
      (offering [0x14160403, 5]).inbox.drop (commandLength (.setf 4 22 20 5)) ≠ .powerOnDuring k :: more :=
  ⟨rfl, rfl, by decide, by simp [offering, commandLength, operandWords, Instr.op]⟩

/-- A power-on reset after two events of a RESET. -/
theorem test_witness_PowerOnInside : ∃ (t : State) (es : List Event),
    (offering [0x00000001] [.powerOnDuring 2]).seq = .idle ∧ (offering [0x00000001] [.powerOnDuring 2]).fault = none ∧
    decode (offeredWords (offering [0x00000001] [.powerOnDuring 2]).inbox) = .command .reset [] ∧
    (offering [0x00000001] [.powerOnDuring 2]).inbox.drop (commandLength .reset) = .powerOnDuring 2 :: [] ∧
    exec .reset
      { offering [0x00000001] [.powerOnDuring 2] with
        inbox := (offering [0x00000001] [.powerOnDuring 2]).inbox.drop (commandLength .reset) } = .next t ∧
    t.events = (offering [0x00000001] [.powerOnDuring 2]).events ++ es :=
  ⟨_, _, rfl, rfl, by decide, by decide, rfl, by rw [show (offering [0x00000001] [.powerOnDuring 2]).events = [] from rfl]; rfl⟩

theorem test_witness_PowerOn : (offering [] [.powerOn]).inbox = .powerOn :: [] := rfl

theorem test_witness_FaultedBlock (r : FaultRecord) :
    { offering [1, 2] with fault := some r }.fault = some r ∧
    { offering [1, 2] with fault := some r }.inbox = ([1, 2] : List Word).map .word ∧
    { offering [1, 2] [.powerOn] with fault := some r }.inbox = ([1, 2] : List Word).map .word ++ .powerOn :: [] ∧
    { offering [] [.powerOnDuring 0] with fault := some r }.inbox = ([] : List Word).map .word ++ .powerOnDuring 0 :: [] :=
  ⟨rfl, rfl, rfl, rfl⟩

theorem test_witness_BusyPort :
    { offering [1] with seq := .wb 6 }.seq ≠ .idle ∧ { offering [1] with seq := .wb 6 }.fault = none ∧
    (∀ more : List HostInput, { offering [1] with seq := .wb 6 }.inbox ≠ .powerOn :: more) ∧
    ∀ (k : Nat) (more : List HostInput), { offering [1] with seq := .wb 6 }.inbox ≠ .powerOnDuring k :: more :=
  ⟨by decide, rfl, by simp [offering], by simp [offering]⟩

theorem test_witness_ReadyBlockWaits :
    (offering [0x14160403]).seq = .idle ∧ (offering [0x14160403]).fault = none ∧
    (offering [0x14160403]).inbox = ([0x14160403] : List Word).map .word ∧ decode [0x14160403] = .incomplete ∧
    decode [] = .incomplete := by decide

theorem test_witness_ControllerCommands : (fresh paramsA).mode = .uninit ∧ (Instr.setf 0 30 15 1).op = .setf ∧
    (Instr.getf 0 30 15).op = .getf ∧ Instr.flush.op = .flush ∧ (Instr.outsel 1 1).op = .outsel ∧
    (Instr.outpwr 5 2).op = .outpwr ∧ (Instr.setfreq 1 1).op = .setfreq := by decide

theorem test_witness_DomainFaults : (0 : BitVec 64) = 0 ∧ sA.mode ≠ .uninit ∧ (0 : BitVec 16) = 0 := by decide

/-- Program P6's end (95_test_vectors.md): FLUSH before RESET records `(2, 0x00000002)`. -/
theorem test_fault_pair : (nextOf (exec .flush (fresh paramsA))).map (fun t => t.fault.map faultPair) =
    some (some (2, 0x00000002)) := by decide

/-- Each of the three faults a command raises. -/
theorem test_witness_CommandFaults : sA.fault = none ∧
    (nextOf (exec .flush (fresh paramsA))).map State.fault = some (some { code := .uninit, header := 2 }) ∧
    (nextOf (exec (.solve 0 1) sA)).map State.fault = some (some { code := .solveDomain, header := 0x10 }) ∧
    (nextOf (exec (.proj 1 0 1 0 0) sA)).map State.fault = some (some { code := .projDomain, header := 0x11 }) := by decide

/-- A command that answers a word and raises no fault. -/
theorem test_witness_ResponseWordCount : sA.fault = none ∧
    (nextOf (exec .lockq sA)).map (fun t => (t.fault, t.responses.length)) = some (none, 1) := by decide

/-- Before RESET, a command that is not RESET completes. -/
theorem test_witness_OnlyReset : (fresh paramsA).mode = .uninit ∧ Instr.lockq ≠ .reset ∧
    (nextOf (exec .lockq (fresh paramsA))).map State.mode = some .uninit := by decide

/-- A command that changes a shadow word, and one that emits. -/
theorem test_witness_ShadowAndEvents :
    (nextOf (exec (.setf 4 22 20 5) sA)).map (readReg 4) = some 0x00500004 ∧ readReg 4 sA = 4 ∧ sA.mode ≠ .cold ∧
    (nextOf (exec (.outsel 1 0) sA)).map State.events = some (sA.events ++ [.write 0x24, .write 0]) := by decide

theorem test_witness_LockDetect : Instr.flush ≠ .lockq ∧ (nextOf (exec .flush sA)).map State.ldInputs = some sA.ldInputs := by
  decide

/-- The field obligations: rejected at each bound, accepted at the ends of the accepted range. -/
theorem test_witness_Fields : sA.mode ≠ .uninit ∧ (fresh paramsA).mode = .uninit ∧
    min (2 : Nat) 31 < 3 ∧ max (32 : Nat) 3 > 31 ∧ (7 : BitVec 8).toNat > 6 ∧
    ((6 : Fin 7).val = (6 : BitVec 8).toNat ∧ 3 ≤ min (31 : BitVec 8).toNat (3 : BitVec 8).toNat ∧
      max (31 : BitVec 8).toNat (3 : BitVec 8).toNat ≤ 31) ∧
    (3 ≤ (3 : BitVec 8).toNat ∧ (3 : BitVec 8).toNat ≤ (3 : BitVec 8).toNat) ∧
    (nextOf (exec (.setf 6 31 3 0xFFFFFFFF) sA)).map (readReg 6) = some 0xFFFFFFFE ∧
    (nextOf (exec (.setf 0 3 3 1) sA)).map (readReg 0) = some 8 := by decide

theorem test_witness_Flush : sA.mode = .steady ∧ sA.dirty = 0 ∧ isDirty 0 sA = false ∧ isDirty 1 sA = false ∧
    isDirty 4 sA = false := by decide

theorem test_witness_Coupling :
    { sA with dirty := 0b1010000 }.mode = .steady ∧ isDirty 4 { sA with dirty := 0b1010000 } = true ∧
    isDirty 0 { sA with dirty := 0b1010000 } = false ∧ isDirty 1 { sA with dirty := 0b1010000 } = false ∧
    divaOf (readReg 4 { sA with dirty := 0b1010000 }) = { sA with dirty := 0b1010000 }.lastDiva := by decide

/-- Part way through a pass over registers 6, 4 and 1: after three phases 6 is sent and 4 not (V-W2's mask). -/
theorem test_witness_InsideAPass : { sA with dirty := 0b1010010 }.mode ≠ .cold ∧ 2 ≤ 7 ∧
    (sequencerStep (sequencerStep (beginWriteBack { sA with dirty := 0b1010010 }))).dirty = 0b0010011 := by decide

/-- The four levels of the power table, and levels and a port outside it. -/
theorem test_witness_Outpwr : sA.mode = .steady ∧ (0xFC#8).toInt = -4 ∧ (0xFF#8).toInt = -1 ∧ (2#8).toInt = 2 ∧
    (5#8).toInt = 5 ∧ ((0#8).toInt ≠ -4 ∧ (0#8).toInt ≠ -1 ∧ (0#8).toInt ≠ 2 ∧ (0#8).toInt ≠ 5) ∧ (3#2 = 3#2) := by decide

/-- A target at the top of the device's range, whose solution fits the fields, and the lowest with DIVA = 7 (V-S10). -/
theorem test_witness_Setfreq : sA.mode = .steady ∧ (6000000000#64) ≠ 0 ∧ (66000000#64) ≠ 0 ∧
    (6000000000 ≠ 0 ∧ 66000000 ≠ 0 ∧ (solve 6000000000 66000000).diva ≤ 7 ∧ (solve 6000000000 66000000).n < 2 ^ 16) ∧
    (solve 23437500 66000000).diva = 7 ∧ (solve 23437500 66000000).n = 45 := by decide

theorem test_witness_Lockq : sA.ldInputs = true :: [] ∧ { sA with ldInputs := [] }.ldInputs = [] := by decide

/-- A remainder 0/1, one that is 10/11, and for `FracMayEqualTheModulus` one above 1 - 1/8190 (V-S8). -/
theorem test_witness_Solver : 0 < 6000000000 ∧ 0 < 66000000 ∧
    (1 ≤ 11 ∧ 11 ≤ 4095 ∧ Nat.Coprime 10 11 ∧ 6000000000 % 66000000 * 11 = 10 * 66000000) ∧
    (Nat.Coprime 0 1 ∧ 5940000000 % 66000000 * 1 = 0 * 66000000) ∧
    (8190 - 1) * 66000000 < 6005999999 % 66000000 * 8190 := by decide

/-- A remainder that is no p/q with q at most 4095: 1/4096 of the reference. -/
theorem test_witness_NoSmallFraction (p q : Nat) (h : 1 ≤ q) (h' : q ≤ 4095) :
    3000000513 * 2 ^ (doubleUp 32 3000000513 0).2 % 4096 * q ≠ p * 4096 := by
  rw [show 3000000513 * 2 ^ (doubleUp 32 3000000513 0).2 % 4096 = 1 by decide]
  omega

theorem test_witness_Proj : (1 : BitVec 16) ≠ 0 ∧ (66000000 : BitVec 64) ≠ 0 := by decide

/-- `S_A` after its RESET meets every invariant, and takes a step. -/
def sAfterReset : State :=
  { sA with
    inbox := [.word 0x00000007]
    events := [.write 5, .delay 20, .write 4, .write 3, .write 2, .write 1, .write 0, .write 6, .write 5, .write 4, .write 3,
      .write 2, .write 1, .write 0] }

theorem test_witness_Invariants : TagsHeld sAfterReset ∧ BetweenCommands sAfterReset ∧ CleanIsSent sAfterReset ∧
    DivaRemembered sAfterReset ∧ UninitUntouched sAfterReset ∧
    (nextOf (step sAfterReset)).map State.responses = some [1] := by
  unfold TagsHeld BetweenCommands CleanIsSent DivaRemembered UninitUntouched
  decide

end Sys2Proof.Tests
end

/-! PROOFS. The family 00_scope.md: a command ends in a next state with its frame, and a step of a ready block is `exec` of the
command it is offered. -/

namespace Sys2Proof.Machine

/-! ### The sequencer phase after a command -/

/-- A write-back ends idle, wherever the sequencer stood (R152). -/
@[simp] theorem writeBack_seq (s : State) : (writeBack s).seq = .idle := rfl

@[simp] theorem setField_seq (reg hi lo value : Nat) (s : State) : (setField reg hi lo value s).seq = s.seq := by
  rw [setField_frame]

@[simp] theorem sampleLD_seq (s : State) : (sampleLD s).2.seq = s.seq := by
  obtain ⟨_, _, h⟩ := sampleLD_keeps s
  rw [h]

/-- A command leaves the sequencer idle by its write-back, or leaves it as it stood (R25). -/
theorem exec_seq {i : Instr} {s t : State} (h : exec i s = .next t) : t.seq = .idle ∨ t.seq = s.seq := by
  cases exec_cases h with
  | raised | answered | ignored => exact .inr rfl
  | sampled => exact .inr (by simp)
  | fieldSet => exact .inr (by simp)
  | coldStarted | flushed | selected | powered | programmed => exact .inl (by simp)

/-- Settles O17: the inversion of `exec` gives the next state, and its laws give the frame. -/
theorem everyCommandCompletesInPlace : Obligations.EveryCommandCompletesInPlace := by
  intro i s
  obtain ⟨t, ht, -⟩ := exec_answers i s
  obtain ⟨hcfg, hinbox, hevents, hresponses⟩ := exec_keeps ht
  refine ⟨t, ht, hcfg, hinbox, hevents, hresponses, fun hidle => ?_⟩
  exact (exec_seq ht).elim id (·.trans hidle)

/-! ### A step of a ready block -/

/-- Where words are offered, no power-on reset is what comes next. -/
theorem inbox_of_offeredWords_ne_nil {inbox : List HostInput} (h : offeredWords inbox ≠ []) :
    ∃ w more, inbox = .word w :: more := by
  match inbox with
  | .word w :: more => exact ⟨w, more, rfl⟩
  | .powerOn :: _ | .powerOnDuring _ :: _ | [] => exact absurd rfl h

/-- A ready block that is offered a word takes what is offered (R43). -/
theorem step_eq_takeCommand {s : State} (hseq : s.seq = .idle) (hfault : s.fault = none)
    (hwords : offeredWords s.inbox ≠ []) : step s = takeCommand s := by
  obtain ⟨w, more, hinbox⟩ := inbox_of_offeredWords_ne_nil hwords
  simp [step, stepPort, hinbox, hfault, hseq]

/-- A ready block that is offered a whole command takes its words and runs it (R43, R81). -/
theorem step_eq_perform {s : State} {i : Instr} {rest : List Word} (hseq : s.seq = .idle) (hfault : s.fault = none)
    (hdecode : decode (offeredWords s.inbox) = .command i rest) :
    step s = perform i { s with inbox := s.inbox.drop (commandLength i) } := by
  have hwords : offeredWords s.inbox ≠ [] := fun h => by simp [h, decode] at hdecode
  rw [step_eq_takeCommand hseq hfault hwords, takeCommand, hdecode]

/-- A command inside which no power-on reset lands runs whole: `exec` does not touch the inbox in which the reset would stand. -/
theorem perform_eq_exec {i : Instr} {s : State} (h : ∀ k more, s.inbox ≠ .powerOnDuring k :: more) :
    perform i s = exec i s := by
  obtain ⟨t, ht, -⟩ := exec_answers i s
  obtain ⟨-, hinbox, -, -⟩ := exec_keeps ht
  simp only [perform, ht]
  split
  · next k more hreset => exact absurd (hinbox ▸ hreset) (h k more)
  all_goals rfl

/-- Settles O8: the step takes the command's words, and with no reset inside it the command runs whole. -/
theorem stepRunsTheDecodedCommand : Obligations.StepRunsTheDecodedCommand := by
  intro s i rest hseq hfault hdecode hreset
  rw [step_eq_perform hseq hfault hdecode, perform_eq_exec hreset]

end Sys2Proof.Machine

/-! PROOFS. The family 10_state.md: the invariants of every step, the power-on reset and the port, what the commands may change, and
the write-back phase by phase. -/

namespace Sys2Proof.Machine

/-! ### Field writes: the words, the tags and the mode -/

/-- A field write is refused, or it is the update of the register it names by a field above the tag (R130, R132). -/
theorem setField_cases (reg hi lo value : Nat) (s : State) :
    setField reg hi lo value s = s ∨ ∃ (r : Fin 7) (h l : Nat), r.val = reg ∧ 3 ≤ l ∧ l ≤ h ∧
      setField reg hi lo value s = withReg r (insertBits h l value (readReg r s)) s := by
  by_cases hrej : min hi lo < 3 ∨ max hi lo > 31 ∨ reg > 6
  · exact .inl (setField_rejects value s hrej)
  · refine .inr ⟨Fin.ofNat 7 reg, max hi lo, min hi lo, Nat.mod_eq_of_lt (by omega), by omega, by omega, ?_⟩
    exact setField_accepts value s (by omega) (by omega) (by omega)

@[simp] theorem setField_mode (reg hi lo value : Nat) (s : State) : (setField reg hi lo value s).mode = s.mode := by
  rw [setField_frame]

@[simp] theorem setField_lastDiva (reg hi lo value : Nat) (s : State) :
    (setField reg hi lo value s).lastDiva = s.lastDiva := by
  rw [setField_frame]

@[simp] theorem setField_events (reg hi lo value : Nat) (s : State) :
    (setField reg hi lo value s).events = s.events := by
  rw [setField_frame]

theorem readReg_setField_of_ne {reg : Nat} {j : Fin 7} (h : j.val ≠ reg) (hi lo value : Nat) (s : State) :
    readReg j (setField reg hi lo value s) = readReg j s := by
  obtain e | ⟨r, _, _, rfl, _, _, e⟩ := setField_cases reg hi lo value s
  · rw [e]
  · rw [e, readReg_withReg, if_neg fun hj => h (congrArg Fin.val hj)]

/-- A register that a field write leaves clean keeps its word, and was clean before (R134). -/
theorem readReg_setField_of_clean {reg hi lo value : Nat} {j : Fin 7} {s : State}
    (h : isDirty j (setField reg hi lo value s) = false) :
    isDirty j s = false ∧ readReg j (setField reg hi lo value s) = readReg j s := by
  obtain e | ⟨r, a, b, -, -, -, e⟩ := setField_cases reg hi lo value s
  · rw [e] at h ⊢
    exact ⟨h, rfl⟩
  · rw [e, isDirty_withReg, Bool.or_eq_false_iff] at h
    refine ⟨h.1, ?_⟩
    rw [e, readReg_withReg]
    split
    · next hj =>
      subst hj
      simpa using h.2
    · rfl

/-- A field above bit 2 leaves the address tag (R132, R133). -/
theorem tagOf_insertBits {hi lo : Nat} (h3 : 3 ≤ lo) (hlh : lo ≤ hi) (value : Nat) (old : Word) :
    tagOf (insertBits hi lo value old) = tagOf old := by
  refine BitVec.eq_of_getLsbD_eq fun k hk => ?_
  simp only [tagOf, BitVec.getLsbD_extractLsb', Nat.zero_add]
  rw [insertBits_getLsbD value old hlh (by omega), if_neg (by omega)]

@[simp] theorem tagOf_setField (reg hi lo value : Nat) (j : Fin 7) (s : State) :
    tagOf (readReg j (setField reg hi lo value s)) = tagOf (readReg j s) := by
  obtain e | ⟨r, a, b, -, h3, hlh, e⟩ := setField_cases reg hi lo value s
  · rw [e]
  · rw [e, readReg_withReg]
    split
    · next hj => rw [hj, tagOf_insertBits h3 hlh]
    · rfl

theorem setField_tagsHeld (reg hi lo value : Nat) {s : State} (h : TagsHeld s) : TagsHeld (setField reg hi lo value s) :=
  fun j => (tagOf_setField reg hi lo value j s).trans (h j)

/-! ### The default image -/

@[simp] theorem readReg_loadDefaults (j : Fin 7) (s : State) : readReg j (loadDefaults s) = s.cfg.imageWord j := by
  match j with
  | 0 | 1 | 2 | 3 | 4 | 5 | 6 => rfl

@[simp] theorem readReg_powerOn (j : Fin 7) (rest : List HostInput) (s : State) :
    readReg j (powerOn rest s) = s.cfg.imageWord j :=
  readReg_loadDefaults j s

/-- R22: `DEFAULT_IMAGE[i][2:0] = i`. -/
@[simp] theorem tagOf_imageWord (c : Config) (j : Fin 7) : tagOf (c.imageWord j) = BitVec.ofNat 3 j := by
  refine BitVec.eq_of_getLsbD_eq fun k hk => ?_
  rw [tagOf, BitVec.getLsbD_extractLsb', Config.imageWord, BitVec.getLsbD_append]
  simp [hk]

/-! ### Which registers a group of field writes reaches -/

section
variable {Q : State → Prop} {s : State}

/-- What writes to register 4 keep, OUTSEL's two keep (R180). -/
theorem selectOutputs_of_setField (hQ : ∀ (hi lo value : Nat) (u : State), Q u → Q (setField 4 hi lo value u))
    (ena enb : BitVec 1) (hs : Q s) : Q (selectOutputs ena enb s) :=
  hQ _ _ _ _ (hQ _ _ _ _ hs)

/-- What writes to register 4 keep, OUTPWR's keep (R183). -/
theorem setPowerFields_of_setField (hQ : ∀ (hi lo value : Nat) (u : State), Q u → Q (setField 4 hi lo value u))
    (code : Nat) (port : BitVec 2) (hs : Q s) : Q (setPowerFields code port s) := by
  have portA : Q (if port = 0 ∨ port = 2 then setField 4 4 3 code s else s) := by
    split
    · exact hQ _ _ _ _ hs
    · exact hs
  simp only [setPowerFields]
  split
  · exact hQ _ _ _ _ portA
  · exact portA

/-- What writes to registers 0, 1 and 4 keep, SETFREQ's four keep (R186). -/
theorem programDividers_of_setField
    (hQ : ∀ (reg hi lo value : Nat) (u : State), reg = 0 ∨ reg = 1 ∨ reg = 4 → Q u → Q (setField reg hi lo value u))
    (d : DividerState) (hs : Q s) : Q (programDividers d s) :=
  hQ _ _ _ _ _ (by simp) <| hQ _ _ _ _ _ (by simp) <| hQ _ _ _ _ _ (by simp) <| hQ _ _ _ _ _ (by simp) hs

end

/-! ### The induction over commands and steps -/

/-- A property of the controller that every command but RESET keeps: it does not look at the fault record or the ports, and outside
UNINIT (where no controller command gets past its check, R204) field writes and write-backs keep it. -/
structure KeptByCommands (P : State → Prop) : Prop where
  ports : ∀ (s : State) (f : Option FaultRecord) (inbox : List HostInput) (ins : List Bool) (k : Nat) (ws : List Word),
    P s → P { s with fault := f, inbox := inbox, ldInputs := ins, ldDraws := k, responses := ws }
  field : ∀ (reg hi lo value : Nat) (s : State), s.mode ≠ .uninit → P s → P (setField reg hi lo value s)
  flushed : ∀ s : State, s.mode ≠ .uninit → P s → P (writeBack s)

/-- A property that RESET and the power-on reset establish as well. -/
structure KeptBySteps (P : State → Prop) : Prop extends KeptByCommands P where
  coldStarted : ∀ s : State, P (writeBack (loadDefaults s))
  poweredOn : ∀ (rest : List HostInput) (s : State), P (powerOn rest s)

section
variable {P : State → Prop} {i : Instr} {s t : State}

theorem KeptByCommands.of_exec (kept : KeptByCommands P) (hreset : i = .reset → P (writeBack (loadDefaults s)))
    (h : exec i s = .next t) (hs : P s) : P t := by
  have field : ∀ (reg hi lo value : Nat) (u : State), u.mode ≠ .uninit ∧ P u →
      (setField reg hi lo value u).mode ≠ .uninit ∧ P (setField reg hi lo value u) :=
    fun reg hi lo value u ⟨m, hu⟩ => ⟨by rwa [setField_mode], kept.field reg hi lo value u m hu⟩
  have flush : ∀ u : State, u.mode ≠ .uninit ∧ P u → P (writeBack u) := fun u ⟨m, hu⟩ => kept.flushed u m hu
  cases exec_cases h with
  | raised | answered => exact kept.ports s _ _ _ _ _ hs
  | sampled =>
    obtain ⟨ins, k, e⟩ := sampleLD_keeps s
    rw [e]
    exact kept.ports s _ _ _ _ _ hs
  | fieldSet _ _ _ _ _ m => exact kept.field _ _ _ _ s m hs
  | ignored => exact hs
  | coldStarted hi => exact hreset hi
  | flushed _ m => exact kept.flushed s m hs
  | selected ena enb _ m => exact flush _ (selectOutputs_of_setField (field 4) ena enb ⟨m, hs⟩)
  | powered _ port code _ _ _ m => exact flush _ (setPowerFields_of_setField (field 4) code port ⟨m, hs⟩)
  | programmed _ _ _ _ _ m =>
    exact flush _ (programDividers_of_setField (fun reg hi lo value u _ => field reg hi lo value u) _ ⟨m, hs⟩)

/-- A step keeps such a property, given that a phase of a write-back in progress does. -/
theorem KeptBySteps.of_step (kept : KeptBySteps P) (hphase : s.seq ≠ .idle → P (sequencerStep s))
    (h : step s = .next t) (hs : P s) : P t := by
  cases step_cases h with
  | poweredOn rest => exact kept.poweredOn rest s
  | waited => exact hs
  | illegal => exact kept.ports s _ _ _ _ _ hs
  | ran i _ _ e => exact kept.of_exec (fun _ => kept.coldStarted _) e (kept.ports s _ _ _ _ _ hs)
  | abandoned => exact kept.poweredOn _ _
  | phase busy => exact hphase busy

end

/-! ### The invariants -/

theorem tagsHeld_of_readReg {s t : State} (h : ∀ j, readReg j t = readReg j s) (hs : TagsHeld s) : TagsHeld t :=
  fun j => (congrArg tagOf (h j)).trans (hs j)

theorem loadDefaults_tagsHeld (s : State) : TagsHeld (loadDefaults s) := fun j => by simp

theorem tagsHeld_keptBySteps : KeptBySteps TagsHeld where
  ports _ _ _ _ _ _ hs := hs
  field reg hi lo value _ _ hs := setField_tagsHeld reg hi lo value hs
  flushed s _ hs := tagsHeld_of_readReg (readReg_writeBack · s) hs
  coldStarted s := tagsHeld_of_readReg (readReg_writeBack · _) (loadDefaults_tagsHeld s)
  poweredOn _ _ j := by simp

/-- Settles O49: the tags are kept by every command and step, and a phase of the sequencer writes no shadow word. -/
theorem everyStepKeepsTheTags : Obligations.EveryStepKeepsTheTags := by
  intro s t hs h
  refine tagsHeld_keptBySteps.of_step (fun _ => ?_) h hs
  obtain ⟨_, _, _, _, _, -, e⟩ := sequencerStep_keeps s
  rw [e]
  exact hs

theorem writeBack_mode (s : State) : (writeBack s).mode = if s.mode = .cold then .steady else s.mode := by
  obtain ⟨_, e⟩ := writeBack_keeps s
  rw [e]

/-- A write-back ends between commands from any state (R155). -/
theorem writeBack_betweenCommands (s : State) : BetweenCommands (writeBack s) := by
  refine ⟨writeBack_seq s, ?_⟩
  rw [writeBack_mode]
  split
  · simp
  · assumption

theorem setField_betweenCommands (reg hi lo value : Nat) {s : State} (h : BetweenCommands s) :
    BetweenCommands (setField reg hi lo value s) := by
  rw [setField_frame]
  exact h

theorem powerOn_betweenCommands (rest : List HostInput) (s : State) : BetweenCommands (powerOn rest s) := by
  simp [BetweenCommands]

theorem betweenCommands_keptBySteps : KeptBySteps BetweenCommands where
  ports _ _ _ _ _ _ hs := hs
  field reg hi lo value _ _ hs := setField_betweenCommands reg hi lo value hs
  flushed s _ _ := writeBack_betweenCommands s
  coldStarted _ := writeBack_betweenCommands _
  poweredOn := powerOn_betweenCommands

/-- Settles O50: a write-back leaves COLD and ends idle, and between commands no phase is in progress. -/
theorem everyStepEndsBetweenCommands : Obligations.EveryStepEndsBetweenCommands :=
  fun _ _ hs h => betweenCommands_keptBySteps.of_step (absurd hs.1) h hs

/-! ### What the chip was last sent -/

theorem lastSentWord_append (i : Fin 7) (es fs : List Event) :
    lastSentWord i (es ++ fs) = (lastSentWord i fs).orElse fun _ => lastSentWord i es := by
  induction es with
  | nil => simp [lastSentWord]
  | cons e es ih =>
    cases e with
    | write w => simp [lastSentWord, ih, Option.orElse_eq_or, Option.or_assoc]
    | delay ms => simp [lastSentWord, ih]

/-- Of words sent with their own tags, the last for a register is its own, if it is among them. -/
theorem lastSentWord_writes {f : Fin 7 → Word} (tags : ∀ i, tagOf (f i) = BitVec.ofNat 3 i) (j : Fin 7) (ids : List (Fin 7)) :
    lastSentWord j (ids.map fun i => .write (f i)) = if j ∈ ids then some (f j) else none := by
  have tag_inj : ∀ i j : Fin 7, BitVec.ofNat 3 i = BitVec.ofNat 3 j ↔ j = i := by decide
  induction ids with
  | nil => rfl
  | cons i ids ih =>
    simp only [List.map_cons, lastSentWord, ih, tags, tag_inj, List.mem_cons]
    by_cases hids : j ∈ ids
    · simp [hids]
    · by_cases hji : j = i
      · subst hji; simp [hids]
      · simp [hids, hji]

theorem mem_sentByFlush_of_dirty {j : Fin 7} {s : State} (h : isDirty j s = true) : j ∈ sentByFlush s := by
  have all : ∀ j : Fin 7, j ∈ [6, 5, 4, 3, 2, 1, 0] := by decide
  simp [sentByFlush, -List.mem_cons, all j, h]

theorem four_mem_sentByFlush (s : State) : 4 ∈ sentByFlush s ↔ isDirty 4 s = true := by
  simp [sentByFlush]

/-- A flush sends the registers of `sentByFlush` and no other (R158). -/
theorem lastSentWord_afterFlush {s : State} (tags : TagsHeld s) (j : Fin 7) :
    lastSentWord j (afterFlush s).events =
      if j ∈ sentByFlush s then some (readReg j s) else lastSentWord j s.events := by
  simp only [afterFlush, lastSentWord_append, lastSentWord_writes tags j]
  split <;> rfl

/-- After the cold-start pass the words are those before it and every register is dirty (R154, R155). -/
theorem coldPass_ready {s : State} (tags : TagsHeld s) : TagsHeld (coldPass s) ∧ ∀ j, isDirty j (coldPass s) = true := by
  rw [coldPass_eq]
  refine ⟨tags, fun j => ?_⟩
  simp only [isDirty]
  revert j
  decide

/-- What a write-back leaves the chip with: the shadow, if the clean registers were sent before (R23, R65). -/
theorem writeBack_sends {s : State} (tags : TagsHeld s)
    (clean : s.mode ≠ .cold → ∀ j, isDirty j s = false → lastSentWord j s.events = some (readReg j s)) (j : Fin 7) :
    lastSentWord j (writeBack s).events = some (readReg j (writeBack s)) := by
  rw [readReg_writeBack]
  by_cases hcold : s.mode = .cold
  · obtain ⟨tags', dirty⟩ := coldPass_ready tags
    rw [writeBack_cold hcold, lastSentWord_afterFlush tags', if_pos (mem_sentByFlush_of_dirty (dirty j)), coldPass_eq]
    rfl
  · rw [writeBack_eq_afterFlush hcold, lastSentWord_afterFlush tags]
    split
    · rfl
    · next hj => exact clean hcold j (eq_false_of_ne_true fun hd => hj (mem_sentByFlush_of_dirty hd))

theorem steady_of_ne {m : Mode} (hu : m ≠ .uninit) (hc : m ≠ .cold) : m = .steady := by
  cases m with
  | uninit => exact absurd rfl hu
  | cold => exact absurd rfl hc
  | steady => rfl

theorem coherent_keptBySteps : KeptBySteps fun s => TagsHeld s ∧ BetweenCommands s ∧ CleanIsSent s where
  ports _ _ _ _ _ _ hs := hs
  field reg hi lo value s _ hs := by
    obtain ⟨tags, between, clean⟩ := hs
    refine ⟨setField_tagsHeld reg hi lo value tags, setField_betweenCommands reg hi lo value between, fun m j hj => ?_⟩
    obtain ⟨hclean, hword⟩ := readReg_setField_of_clean hj
    rw [setField_events, hword]
    exact clean (by rwa [setField_mode] at m) j hclean
  flushed s m hs := by
    obtain ⟨tags, between, clean⟩ := hs
    refine ⟨tagsHeld_keptBySteps.flushed s m tags, writeBack_betweenCommands s, fun _ j _ => ?_⟩
    refine writeBack_sends tags (fun hcold => clean (steady_of_ne m hcold)) j
  coldStarted s :=
    ⟨tagsHeld_keptBySteps.coldStarted s, writeBack_betweenCommands _,
      fun _ j _ => writeBack_sends (loadDefaults_tagsHeld s) (absurd rfl) j⟩
  poweredOn rest s := ⟨tagsHeld_keptBySteps.poweredOn rest s, powerOn_betweenCommands rest s, fun m => by simp at m⟩

/-- Settles O51: a word changes only with its dirty bit set, and a write-back sends every dirty register under its own tag. -/
theorem everyStepKeepsCleanRegistersSent : Obligations.EveryStepKeepsCleanRegistersSent :=
  fun _ _ tags between clean h => (coherent_keptBySteps.of_step (absurd between.1) h ⟨tags, between, clean⟩).2.2

/-- A flush remembers the DIVA of the register-4 word it sends (R26, R158). -/
theorem afterFlush_divaSent {s : State} (tags : TagsHeld s)
    (sent : isDirty 4 s = false → (lastSentWord 4 s.events).map divaOf = some s.lastDiva) :
    (lastSentWord 4 (afterFlush s).events).map divaOf = some (afterFlush s).lastDiva := by
  rw [lastSentWord_afterFlush tags]
  simp only [four_mem_sentByFlush, afterFlush]
  split
  · rfl
  · next h => exact sent (eq_false_of_ne_true h)

theorem writeBack_divaSent {s : State} (tags : TagsHeld s)
    (sent : s.mode ≠ .cold → (lastSentWord 4 s.events).map divaOf = some s.lastDiva) :
    (lastSentWord 4 (writeBack s).events).map divaOf = some (writeBack s).lastDiva := by
  by_cases hcold : s.mode = .cold
  · obtain ⟨tags', dirty⟩ := coldPass_ready tags
    rw [writeBack_cold hcold]
    exact afterFlush_divaSent tags' fun h => by simp [dirty 4] at h
  · rw [writeBack_eq_afterFlush hcold]
    exact afterFlush_divaSent tags fun _ => sent hcold

theorem divaRemembered_keptBySteps : KeptBySteps fun s => TagsHeld s ∧ BetweenCommands s ∧ DivaRemembered s where
  ports _ _ _ _ _ _ hs := hs
  field reg hi lo value s _ hs := by
    obtain ⟨tags, between, sent⟩ := hs
    refine ⟨setField_tagsHeld reg hi lo value tags, setField_betweenCommands reg hi lo value between, ?_⟩
    simpa [DivaRemembered] using sent
  flushed s m hs := by
    obtain ⟨tags, between, sent⟩ := hs
    refine ⟨tagsHeld_keptBySteps.flushed s m tags, writeBack_betweenCommands s, fun _ => ?_⟩
    refine writeBack_divaSent tags fun hcold => sent (steady_of_ne m hcold)
  coldStarted s :=
    ⟨tagsHeld_keptBySteps.coldStarted s, writeBack_betweenCommands _,
      fun _ => writeBack_divaSent (loadDefaults_tagsHeld s) (absurd rfl)⟩
  poweredOn rest s := ⟨tagsHeld_keptBySteps.poweredOn rest s, powerOn_betweenCommands rest s, fun m => by simp at m⟩

/-- Settles O52: only a write-back sends register 4, and it remembers the DIVA of the last word it sends for it. -/
theorem everyStepKeepsLastDiva : Obligations.EveryStepKeepsLastDiva :=
  fun _ _ tags between sent h => (divaRemembered_keptBySteps.of_step (absurd between.1) h ⟨tags, between, sent⟩).2.2

theorem uninitUntouched_keptBySteps : KeptBySteps UninitUntouched where
  ports _ _ _ _ _ _ hs := hs
  field reg hi lo value _ m _ := fun m' => absurd m' (by rwa [setField_mode])
  flushed s m _ := fun m' => by
    rw [writeBack_mode] at m'
    split at m'
    · cases m'
    · exact absurd m' m
  coldStarted s := fun m => by simp [writeBack_mode] at m
  poweredOn rest s := fun _ => ⟨rfl, rfl, rfl⟩

/-- Settles O53: what writes the controller runs outside UNINIT, or is a RESET that leaves it, or gives the power-on values. -/
theorem everyStepKeepsUninitUntouched : Obligations.EveryStepKeepsUninitUntouched :=
  fun _ _ between untouched h => uninitUntouched_keptBySteps.of_step (absurd between.1) h untouched

/-! ### The power-on state -/

/-- Settles O48: the power-on state is what a power-on reset leaves, so it meets each invariant that every step keeps. -/
theorem powerOnStateMeetsTheInvariants : Obligations.PowerOnStateMeetsTheInvariants := by
  have reset_eq : State.reset = powerOn [] State.reset := rfl
  rw [Obligations.PowerOnStateMeetsTheInvariants, reset_eq]
  obtain ⟨tags, between, clean⟩ := coherent_keptBySteps.poweredOn [] State.reset
  obtain ⟨-, -, diva⟩ := divaRemembered_keptBySteps.poweredOn [] State.reset
  exact ⟨tags, between, clean, diva, uninitUntouched_keptBySteps.poweredOn [] State.reset⟩

/-! ### What the commands may change -/

/-- `t` is in mode UNINIT with the controller of `s`, and nothing was sent between them. -/
def SameUninitController (s t : State) : Prop :=
  t.mode = .uninit ∧ t.regs = s.regs ∧ t.dirty = s.dirty ∧ t.lastDiva = s.lastDiva ∧ t.seq = s.seq ∧ t.events = s.events

theorem sameUninitController_keptByCommands (s : State) : KeptByCommands (SameUninitController s) where
  ports _ _ _ _ _ _ hu := hu
  field _ _ _ _ _ m hu := absurd hu.1 m
  flushed _ m hu := absurd hu.1 m

/-- Settles O19: in UNINIT no command but RESET gets past its check to a field write or a write-back. -/
theorem onlyResetLeavesUninit : Obligations.OnlyResetLeavesUninit :=
  fun _ s _ m hne h =>
    (sameUninitController_keptByCommands s).of_exec (absurd · hne) h ⟨m, rfl, rfl, rfl, rfl, rfl⟩

theorem tag_keptByCommands (j : Fin 7) (tag : BitVec 3) : KeptByCommands fun s => tagOf (readReg j s) = tag where
  ports _ _ _ _ _ _ hs := hs
  field _ _ _ _ _ _ hs := by rwa [tagOf_setField]
  flushed _ _ hs := by rwa [readReg_writeBack]

/-- Settles O20: RESET loads the default image with its tags, and every other command keeps each tag. -/
theorem onlyResetWritesTheTags : Obligations.OnlyResetWritesTheTags := by
  intro i s t j h
  split
  · next hi =>
    subst hi
    cases h
    rw [readReg_writeBack, readReg_loadDefaults, tagOf_imageWord]
  · next hi => exact (tag_keptByCommands j _).of_exec (absurd · hi) h rfl

/-- A field write to another register keeps a word. -/
theorem readReg_setField_keeps {reg : Nat} {j : Fin 7} {w : Word} (hj : j.val ≠ reg) (hi lo value : Nat) (u : State)
    (h : readReg j u = w) : readReg j (setField reg hi lo value u) = w :=
  (readReg_setField_of_ne hj hi lo value u).trans h

/-- Settles O21: a write-back writes no shadow word, so the words change by the commands' field writes and RESET alone. -/
theorem shadowWordsChangeOnlyByTheirCommands : Obligations.ShadowWordsChangeOnlyByTheirCommands := by
  intro i s t j h hchanged
  have only4 : ∀ {u : State}, (j.val ≠ 4 → readReg j u = readReg j s) → readReg j (writeBack u) ≠ readReg j s → j = 4 :=
    fun hu hw => Fin.ext (by_contra fun hj => hw ((readReg_writeBack j _).trans (hu hj)))
  cases exec_cases h with
  | raised | answered | ignored => exact absurd rfl hchanged
  | sampled =>
    obtain ⟨ins, k, e⟩ := sampleLD_keeps s
    rw [e] at hchanged
    exact absurd rfl hchanged
  | fieldSet reg hi lo value hi' =>
    refine .inr (.inl ⟨reg, hi, lo, value, hi', by_contra fun hj => hchanged ?_⟩)
    exact readReg_setField_of_ne (Ne.symm hj) _ _ _ s
  | coldStarted hi => exact .inl hi
  | flushed => exact absurd (readReg_writeBack j s) hchanged
  | selected ena enb hi =>
    subst hi
    exact .inr (.inr (.inl ⟨rfl, only4 (fun hj => selectOutputs_of_setField (readReg_setField_keeps hj) ena enb rfl) hchanged⟩))
  | powered level port code hi =>
    subst hi
    exact .inr (.inr (.inr (.inl
      ⟨rfl, only4 (fun hj => setPowerFields_of_setField (readReg_setField_keeps hj) code port rfl) hchanged⟩)))
  | programmed targetHz refHz hi =>
    subst hi
    refine .inr (.inr (.inr (.inr ⟨rfl, by_contra fun hj => hchanged ((readReg_writeBack j _).trans ?_)⟩)))
    refine programDividers_of_setField (fun reg hi lo value u hreg => readReg_setField_keeps ?_ hi lo value u) _ rfl
    omega

/-! ### The power-on reset and the port -/

/-- Settles O9: the command is run for its events, and what it did besides is replaced by the power-on state. -/
theorem powerOnResetInsideACommand : Obligations.PowerOnResetInsideACommand := by
  intro s t i rest k more es hseq hfault hdecode hreset hexec hevents
  obtain ⟨-, hinbox, -, -⟩ := exec_keeps hexec
  rw [step_eq_perform hseq hfault hdecode, perform, hexec]
  simp only [hinbox, hreset, abandon, hevents, List.take_length_add_append]
  rfl

theorem afterPowerOn_words (ws : List Word) (more : List HostInput) :
    afterPowerOn (ws.map .word ++ more) = afterPowerOn more := by
  induction ws with
  | nil => rfl
  | cons w ws ih => exact ih

/-- A faulted block waits for the next power-on reset, asserted at once or after words (R200, R209). -/
theorem step_eq_stayFaulted {s : State} {r : FaultRecord} (h : s.fault = some r) : step s = stayFaulted r s := by
  unfold step stepPort
  split
  · next more hin => simp [stayFaulted, hin, afterPowerOn]
  · next k more hin => simp [stayFaulted, hin, afterPowerOn]
  all_goals rw [h]

/-- Settles O11: a faulted block's step looks for the next power-on reset past any words. -/
theorem faultedBlockIsLeftOnlyByPowerOn : Obligations.FaultedBlockIsLeftOnlyByPowerOn := by
  intro s r ws h
  rw [step_eq_stayFaulted h, stayFaulted]
  refine ⟨fun hin => ?_, fun more hin => ?_, fun k more hin => ?_⟩
  · rw [hin, ← List.append_nil (ws.map _), afterPowerOn_words]
    rfl
  · rw [hin, afterPowerOn_words]
    rfl
  · rw [hin, afterPowerOn_words]
    rfl

/-- With no fault and no power-on reset next, a busy block does one phase of its write-back (R25, R43). -/
theorem step_eq_sequencerStep {s : State} (hbusy : s.seq ≠ .idle) (hfault : s.fault = none)
    (hon : ∀ more : List HostInput, s.inbox ≠ .powerOn :: more)
    (hduring : ∀ (k : Nat) (more : List HostInput), s.inbox ≠ .powerOnDuring k :: more) :
    step s = .next (sequencerStep s) := by
  unfold step stepPort
  split
  · next more hin => exact absurd hin (hon more)
  · next k more hin => exact absurd hin (hduring k more)
  all_goals
    rw [hfault]
    exact if_neg hbusy

/-- Settles O12: the step is a phase of the sequencer, which touches no port but the Transport and emits at most one event. -/
theorem busyPortTakesNoWord : Obligations.BusyPortTakesNoWord := by
  intro s hbusy hfault hon hduring
  obtain ⟨_, _, _, _, es, len, e⟩ := sequencerStep_keeps s
  refine ⟨sequencerStep s, step_eq_sequencerStep hbusy hfault hon hduring, rfl, ?_⟩
  rw [e]
  exact ⟨rfl, rfl, es, rfl, len⟩

/-! ### The lock-detect input -/

/-- Settles O39: LOCKQ draws one sample and answers it. -/
theorem lockqForwardsTheSample : Obligations.LockqForwardsTheSample := by
  have word : ∀ ld : Bool, (BitVec.ofBool ld).setWidth 32 = if ld then 0x00000001#32 else 0x00000000#32 := by decide
  refine ⟨fun s ld more h => ?_, fun s h => ⟨Config.lockDetect s.ldDraws, ?_⟩⟩
  · simp [exec, execLockq, sampleLD, h, respond, word]
  · simp [exec, execLockq, sampleLD, h, respond, word]

theorem unlessUninit_of_uninit {s : State} (m : s.mode = .uninit) (header : Word) (body : Result) :
    unlessUninit header s body = raise .uninit header s :=
  if_pos m

theorem unlessUninit_of_ne {s : State} (m : s.mode ≠ .uninit) (header : Word) (body : Result) :
    unlessUninit header s body = body :=
  if_neg m

/-- `s` in a run that was given other samples and has drawn another number of them. -/
def withSamples (ins : List Bool) (k : Nat) (s : State) : State := { s with ldInputs := ins, ldDraws := k }

/-- An answer whose next state, if it is one, has those samples. -/
def answerWithSamples (ins : List Bool) (k : Nat) : Result → Result
  | .next t => .next (withSamples ins k t)
  | .fault r => .fault r
  | .refused r => .refused r

section
variable (ins : List Bool) (k : Nat) (s : State)

theorem readReg_withSamples (j : Fin 7) : readReg j (withSamples ins k s) = readReg j s := rfl

theorem unlessUninit_withSamples (header : Word) (body : Result) :
    unlessUninit header (withSamples ins k s) (answerWithSamples ins k body) =
      answerWithSamples ins k (unlessUninit header s body) := by
  by_cases m : s.mode = .uninit
  · rw [unlessUninit_of_uninit m, unlessUninit_of_uninit (s := withSamples ins k s) m]
    rfl
  · rw [unlessUninit_of_ne m, unlessUninit_of_ne (s := withSamples ins k s) m]

theorem withReg_withSamples (i : Fin 7) (w : Word) :
    withReg i w (withSamples ins k s) = withSamples ins k (withReg i w s) := by
  by_cases h : w = readReg i s
  · rw [withReg_of_eq h, withReg_of_eq (s := withSamples ins k s) h]
  · rw [withReg_of_ne h, withReg_of_ne (s := withSamples ins k s) h]
    rfl

theorem setField_withSamples (reg hi lo value : Nat) :
    setField reg hi lo value (withSamples ins k s) = withSamples ins k (setField reg hi lo value s) := by
  unfold setField
  split
  · rfl
  · rw [writeField_eq, writeField_eq, readReg_withSamples, withReg_withSamples]

theorem writeBack_withSamples : writeBack (withSamples ins k s) = withSamples ins k (writeBack s) := by
  by_cases h : s.mode = .cold
  · rw [writeBack_cold h, writeBack_cold (s := withSamples ins k s) h, coldPass_eq, coldPass_eq]
    rfl
  · rw [writeBack_eq_afterFlush h, writeBack_eq_afterFlush (s := withSamples ins k s) h]
    rfl

theorem setPowerFields_withSamples (code : Nat) (port : BitVec 2) :
    setPowerFields code port (withSamples ins k s) = withSamples ins k (setPowerFields code port s) := by
  simp only [setPowerFields, setField_withSamples, ← apply_ite (withSamples ins k)]

/-- R42: a command other than LOCKQ does not look at the samples. -/
theorem exec_withSamples {i : Instr} (hi : i ≠ .lockq) :
    exec i (withSamples ins k s) = answerWithSamples ins k (exec i s) := by
  cases i with
  | solve =>
    simp only [exec, execSolve]
    split <;> rfl
  | proj =>
    simp only [exec, execProj]
    split <;> rfl
  | reset => exact congrArg _ (writeBack_withSamples ins k (loadDefaults s))
  | setf =>
    simp only [exec, execSetf, setField_withSamples, ← unlessUninit_withSamples]
    rfl
  | getf =>
    simp only [exec, execGetf, ← unlessUninit_withSamples]
    rfl
  | flush =>
    simp only [exec, execFlush, writeBack_withSamples, ← unlessUninit_withSamples]
    rfl
  | outsel =>
    simp only [exec, execOutsel, selectOutputs, setField_withSamples, writeBack_withSamples, ← unlessUninit_withSamples]
    rfl
  | outpwr =>
    simp only [exec, execOutpwr, setPowerFields_withSamples, writeBack_withSamples, ← unlessUninit_withSamples]
    congr 1
    split
    · rfl
    · split <;> rfl
  | setfreq =>
    simp only [exec, execSetfreq, programDividers, setField_withSamples, writeBack_withSamples, ← unlessUninit_withSamples]
    congr 1
    split <;> rfl
  | lockq => exact absurd rfl hi

end

/-- Settles O23: given its own samples back, the command ends where it ended, so it leaves them alone. -/
theorem lockDetectReachesOnlyLockq : Obligations.LockDetectReachesOnlyLockq := by
  intro i s t samples draws hi h
  have own : t = withSamples s.ldInputs s.ldDraws t := by
    have e := exec_withSamples s.ldInputs s.ldDraws s hi
    rw [show withSamples s.ldInputs s.ldDraws s = s from rfl, h] at e
    exact Host.Outcome.next.inj e
  refine ⟨(congrArg State.ldInputs own).trans rfl, (congrArg State.ldDraws own).trans rfl, ?_⟩
  have e := exec_withSamples samples draws s hi
  rwa [h] at e

/-! ### The write-back phase by phase -/

/-- The phase after a phase; after the cold-start pass it is the first of the steady pass (R153, R158). -/
def followingPhase : SeqPhase → SeqPhase
  | .idle => .idle
  | .csR5 => .csDelay
  | .csDelay => .csR4
  | .csR4 => .csR3
  | .csR3 => .csR2
  | .csR2 => .csR1
  | .csR1 => .csR0
  | .csR0 => .wb 6
  | .wb i => if i = 0 then .idle else .wb (i - 1)

theorem phaseAction_seq (p : SeqPhase) (s : State) : (phaseAction p s).seq = s.seq := by
  cases p with
  | wb i => simp only [phaseAction, steadyTurn_eq]
  | _ => rfl

@[simp] theorem runPhase_seq (s : State) (p : SeqPhase) : (runPhase s p).seq = p := phaseAction_seq p _

/-- Leaving a phase moves on to the next, but for the end of the cold-start pass, which does more (R155). -/
theorem leavePhase_eq {s : State} {p : SeqPhase} (hseq : s.seq = p) (hp : p ≠ .csR0) :
    leavePhase s = { s with seq := followingPhase p } := by
  cases p with
  | csR0 => exact absurd rfl hp
  | idle =>
    simp only [leavePhase, hseq, followingPhase]
    rw [← hseq]
  | wb i =>
    simp only [leavePhase, hseq, followingPhase]
    split <;> rfl
  | _ => simp only [leavePhase, hseq, followingPhase]

/-- `ps` are the phases from `p` on, none of them the end of the cold-start pass, and `q` is the phase after them. -/
def PhasesFrom : SeqPhase → List SeqPhase → SeqPhase → Prop
  | p, [], q => p = q
  | p, p' :: ps, q => p = p' ∧ p ≠ .csR0 ∧ PhasesFrom (followingPhase p) ps q

/-- The sequencer run over phases in a row does their actions in order (R162). -/
theorem sequencerStep_iterate {ps : List SeqPhase} {p q : SeqPhase} (h : PhasesFrom p ps q) (s : State) :
    sequencerStep^[ps.length] { s with seq := p } = { ps.foldl runPhase s with seq := q } := by
  induction ps generalizing p s with
  | nil => cases h; rfl
  | cons p' ps ih =>
    obtain ⟨rfl, hne, hrest⟩ := h
    have first : sequencerStep { s with seq := p } = { runPhase s p with seq := followingPhase p } :=
      leavePhase_eq (runPhase_seq s p) hne
    rw [List.length_cons, Function.iterate_succ_apply, first, List.foldl_cons]
    exact ih hrest (runPhase s p)

/-- Seven phases of a steady pass, from its first (R158). -/
theorem sequencerStep_steadyPhases (s : State) :
    sequencerStep^[7] { s with seq := .wb 6 } = { steadyPass s with seq := .idle } :=
  sequencerStep_iterate (ps := steadyPhases) (by simp [steadyPhases, PhasesFrom, followingPhase]) s

/-- Seven phases of a cold-start pass, from its first: the last one ends the pass and couples (R152, R153, R155). -/
theorem sequencerStep_coldPhases (s : State) :
    sequencerStep^[7] { s with seq := .csR5 } = { couple (coldPass s) with seq := .wb 6 } := by
  have six := sequencerStep_iterate (ps := [.csR5, .csDelay, .csR4, .csR3, .csR2, .csR1]) (p := .csR5) (q := .csR0)
    (by simp [PhasesFrom, followingPhase]) s
  exact (Function.iterate_succ_apply' sequencerStep 6 _).trans (congrArg sequencerStep six)

theorem sequencerStep_idle {s : State} (h : s.seq = .idle) : sequencerStep s = s := by
  simp [sequencerStep, phaseAction, leavePhase, h]

/-- Settles O33: a cold-start pass and a steady pass are seven phases each, and a write-back that is over stays over. -/
theorem writeBackIsItsPhases : Obligations.WriteBackIsItsPhases := by
  intro s
  rw [show 14 = 7 + 7 from rfl, Function.iterate_add_apply]
  by_cases hcold : s.mode = .cold
  · simp only [beginWriteBack, writeBack, if_pos hcold, sequencerStep_coldPhases]
    exact sequencerStep_steadyPhases (couple (coldPass s))
  · simp only [beginWriteBack, writeBack, if_neg hcold, sequencerStep_steadyPhases]
    exact Function.iterate_fixed (sequencerStep_idle rfl) 7

end Sys2Proof.Machine

/-! PROOFS. The family 20_memory.md: what the run has shown stays shown. -/

namespace Sys2Proof.Machine

/-- An abandoned command keeps the events shown before it, wherever the reset cuts the command's own (R221). -/
theorem events_prefix_abandon {s t : State} (h : s.events <+: t.events) (k : Nat) (rest : List HostInput) :
    s.events <+: (abandon k rest s t).events :=
  List.prefix_take_iff.mpr ⟨h, Nat.le_add_right _ k⟩

/-- Settles O54: commands and phases of the sequencer add to what is shown, and a power-on reset leaves it. -/
theorem everyStepOnlyAddsToWhatIsShown : Obligations.EveryStepOnlyAddsToWhatIsShown := by
  intro s t h
  cases step_cases h with
  | poweredOn | waited | illegal => exact ⟨List.prefix_rfl, List.prefix_rfl, rfl⟩
  | ran _ _ _ e =>
    obtain ⟨hcfg, -, hevents, hresponses⟩ := exec_keeps e
    exact ⟨hevents, hresponses, hcfg⟩
  | abandoned _ _ k rest _ e =>
    obtain ⟨-, -, hevents, -⟩ := exec_keeps e
    exact ⟨events_prefix_abandon hevents k rest, List.prefix_rfl, rfl⟩
  | phase =>
    obtain ⟨_, _, _, _, es, -, e⟩ := sequencerStep_keeps s
    rw [e]
    exact ⟨List.prefix_append _ es, List.prefix_rfl, rfl⟩

end Sys2Proof.Machine

/-! PROOFS. The family 30_encoding.md: the opcode map, decoding and encoding as inverses, illegal headers, the assembler, and the
response words a command's opcode fixes. -/

namespace Sys2Proof.Machine

/-! ### The opcode map -/

/-- The lowest header bit from which on a row's format reserves every bit (R71 to R76); 32 where it reserves none. -/
def reservedFrom : Op → Nat
  | .reset | .flush | .lockq | .solve | .setfreq => 8
  | .outsel => 10
  | .proj => 16
  | .outpwr => 18
  | .setf | .getf => 32

/-- A row's mask covers its opcode and its reserved bits (R78). -/
theorem opMask_getLsbD (r : Op) {j : Nat} (hj : j < 32) :
    (opMask r).getLsbD j = (decide (j < 8) || decide (reservedFrom r ≤ j)) := by
  have bits : ∀ k : Fin 32, (opMask r).getLsbD k = (decide (k.val < 8) || decide (reservedFrom r ≤ k.val)) := by
    cases r <;> decide
  exact bits ⟨j, hj⟩

theorem opMatch_getLsbD (r : Op) {j : Nat} (hj : j < 32) : (opMatch r).getLsbD j = (opCode r).getLsbD j := by
  rw [opMatch, BitVec.getLsbD_setWidth, decide_eq_true hj, Bool.true_and]

/-- A row selects the headers with its opcode and with its reserved bits 0 (R78, R79). -/
theorem header_matches_iff (r : Op) (h : Word) :
    h &&& opMask r = opMatch r ↔
      h.extractLsb' 0 8 = opCode r ∧ h.extractLsb' (reservedFrom r) (32 - reservedFrom r) = 0 := by
  have from_ge : 8 ≤ reservedFrom r := by cases r <;> decide
  constructor
  · intro e
    have bit : ∀ j < 32, (h.getLsbD j && (decide (j < 8) || decide (reservedFrom r ≤ j))) = (opCode r).getLsbD j := by
      intro j hj
      rw [← opMask_getLsbD r hj, ← BitVec.getLsbD_and, e, opMatch_getLsbD r hj]
    refine ⟨BitVec.eq_of_getLsbD_eq fun j hj => ?_, BitVec.eq_of_getLsbD_eq fun j hj => ?_⟩
    · simpa [hj] using bit j (by omega)
    · have clear := bit (reservedFrom r + j) (by omega)
      rw [BitVec.getLsbD_of_ge (opCode r) _ (by omega)] at clear
      simpa [hj] using clear
  · rintro ⟨hcode, hres⟩
    refine BitVec.eq_of_getLsbD_eq fun j hj => ?_
    rw [BitVec.getLsbD_and, opMask_getLsbD r hj, opMatch_getLsbD r hj, ← hcode, BitVec.getLsbD_extractLsb']
    by_cases hfrom : reservedFrom r ≤ j
    · have clear : h.getLsbD j = false := by
        simpa [Nat.add_sub_of_le hfrom, show j - reservedFrom r < 32 - reservedFrom r by omega] using
          congrArg (·.getLsbD (j - reservedFrom r)) hres
      simp [clear]
    · simp [hfrom, Bool.and_comm]

theorem opCode_injective {r r' : Op} (h : opCode r = opCode r') : r = r' := by
  revert h
  cases r <;> cases r' <;> decide

/-- Settles O4: a header's opcode is that of every row that selects it, and no two rows share one. -/
theorem opcodeRowsSelectDisjointHeaders : Obligations.OpcodeRowsSelectDisjointHeaders := by
  intro h r r' hr hr'
  obtain ⟨hcode, -⟩ := (header_matches_iff r h).mp hr
  obtain ⟨hcode', -⟩ := (header_matches_iff r' h).mp hr'
  exact opCode_injective (hcode.symm.trans hcode')

theorem mem_opRows (r : Op) : r ∈ opRows := by cases r <;> decide

/-- Decoding finds the one row that selects the header (R79). -/
theorem decodeHeader_eq_some_iff {h : Word} {r : Op} : decodeHeader h = some r ↔ h &&& opMask r = opMatch r := by
  constructor
  · intro e
    simpa using List.find?_some e
  · intro hr
    have found : (decodeHeader h).isSome := List.find?_isSome.mpr ⟨r, mem_opRows r, by simpa using hr⟩
    obtain ⟨r', hr'⟩ := Option.isSome_iff_exists.mp found
    rw [hr', opcodeRowsSelectDisjointHeaders h r' r (by simpa using List.find?_some hr') hr]

theorem decodeHeader_eq_none_iff {h : Word} : decodeHeader h = none ↔ ∀ r, h &&& opMask r ≠ opMatch r := by
  simp [decodeHeader, mem_opRows]

/-- The model's framing laws, for every command (R70, R78, R81). -/
theorem framing (i : Instr) : Laws.Framing.Statement i := by
  cases i with
  | solve => exact Laws.Framing.solve ..
  | proj => exact Laws.Framing.proj ..
  | reset => exact Laws.Framing.reset
  | setf => exact Laws.Framing.setf ..
  | getf => exact Laws.Framing.getf ..
  | flush => exact Laws.Framing.flush
  | outsel => exact Laws.Framing.outsel ..
  | outpwr => exact Laws.Framing.outpwr ..
  | setfreq => exact Laws.Framing.setfreq ..
  | lockq => exact Laws.Framing.lockq

/-- A command's header selects its own row (R70, R78). -/
theorem decodeHeader_header (i : Instr) : decodeHeader i.header = some i.op := by
  obtain ⟨-, hmatch⟩ := framing i
  exact decodeHeader_eq_some_iff.mpr hmatch

/-! ### Decoding is the inverse of encoding -/

theorem splitWords_two (x : BitVec 64) : splitWords 2 x.toNat = [x.extractLsb' 0 32, x.extractLsb' 32 32] := by
  simp only [splitWords, List.cons.injEq, and_true]
  constructor <;> refine BitVec.eq_of_toNat_eq ?_ <;> simp [BitVec.extractLsb'_toNat, Nat.shiftRight_eq_div_pow]

/-- A 64-bit operand is its two words, the low one first (R77). -/
theorem splitWords_append (hi lo : Word) : splitWords 2 (hi ++ lo).toNat = [lo, hi] := by
  rw [splitWords_two, BitVec.extractLsb'_append_eq_right, BitVec.extractLsb'_append_eq_left]

section
variable {u v w x : Nat}

theorem extractLsb'_append_append (a : BitVec u) (b : BitVec v) (c : BitVec w) : (a ++ b ++ c).extractLsb' w v = b := by
  rw [BitVec.extractLsb'_append_eq_of_le le_rfl, Nat.sub_self, BitVec.extractLsb'_append_eq_right]

/-- The fields of a header read back (R72 to R74). -/
theorem extractLsb'_fields (a : BitVec u) (b : BitVec v) (c : BitVec w) (d : BitVec x) :
    (a ++ b ++ c ++ d).extractLsb' x w = c ∧ (a ++ b ++ c ++ d).extractLsb' (x + w) v = b ∧
      (a ++ b ++ c ++ d).extractLsb' (x + w + v) u = a := by
  refine ⟨extractLsb'_append_append .., ?_, ?_⟩
  · rw [BitVec.extractLsb'_append_eq_of_le (by omega), Nat.add_sub_cancel_left, extractLsb'_append_append]
  · rw [BitVec.extractLsb'_append_eq_of_le (by omega), BitVec.extractLsb'_append_eq_of_le (by omega),
      show x + w + v - x - w = v by omega, BitVec.extractLsb'_append_eq_left]

theorem append_two_fields {h : BitVec (u + v)} {a : BitVec u} {b : BitVec v} (ha : h.extractLsb' v u = a)
    (hb : h.extractLsb' 0 v = b) : a ++ b = h := by
  rw [← ha, ← hb, BitVec.extractLsb'_append_extractLsb']

theorem append_three_fields {h : BitVec (u + v + w)} {a : BitVec u} {c : BitVec w} (ha : h.extractLsb' (w + v) u = a)
    (hc : h.extractLsb' 0 w = c) : a ++ h.extractLsb' w v ++ c = h := by
  rw [← ha, ← hc, BitVec.extractLsb'_append_extractLsb'_eq_extractLsb' rfl, BitVec.extractLsb'_append_extractLsb']

theorem append_four_fields {h : BitVec (u + v + w + x)} {a : BitVec u} {d : BitVec x}
    (ha : h.extractLsb' (x + w + v) u = a) (hd : h.extractLsb' 0 x = d) :
    a ++ h.extractLsb' (x + w) v ++ h.extractLsb' x w ++ d = h := by
  rw [← ha, BitVec.extractLsb'_append_extractLsb'_eq_extractLsb' rfl, append_three_fields rfl hd]

end

/-- Operand assembly reads the operands back out of a command's words (R72 to R77). -/
theorem assembleOperands_encode (i : Instr) (rest : List Word) :
    assembleOperands i.op i.header (i.operands ++ rest) = some (i, rest) := by
  have halves : ∀ y : BitVec 64, y.extractLsb' 32 32 ++ y.extractLsb' 0 32 = y :=
    fun _ => BitVec.extractLsb'_append_extractLsb'
  cases i with
  | solve targetHz refHz | setfreq targetHz refHz =>
    simp [Instr.op, Instr.operands, assembleOperands, splitWords_two, halves]
  | reset | flush | lockq => rfl
  | proj n frac modulus diva refHz =>
    have hdiva : (0#16 ++ diva ++ 0x11#8).extractLsb' 8 8 = diva := extractLsb'_append_append ..
    have hfrac : (modulus ++ frac).extractLsb' 0 16 = frac := BitVec.extractLsb'_append_eq_right
    have hmodulus : (modulus ++ frac).extractLsb' 16 16 = modulus := BitVec.extractLsb'_append_eq_left
    simp [Instr.op, Instr.header, Instr.operands, assembleOperands, splitWords_two, halves, hdiva, hfrac, hmodulus]
  | setf reg hi lo value =>
    obtain ⟨hreg, hhi, hlo⟩ := extractLsb'_fields lo hi reg 0x03#8
    simp [Instr.op, Instr.header, Instr.operands, assembleOperands, hreg, hhi, hlo]
  | getf reg hi lo =>
    obtain ⟨hreg, hhi, hlo⟩ := extractLsb'_fields lo hi reg 0x04#8
    simp [Instr.op, Instr.header, Instr.operands, assembleOperands, hreg, hhi, hlo]
  | outsel ena enb =>
    obtain ⟨hena, henb, -⟩ := extractLsb'_fields 0#22 enb ena 0x05#8
    simp [Instr.op, Instr.header, Instr.operands, assembleOperands, hena, henb]
  | outpwr level port =>
    obtain ⟨hlevel, hport, -⟩ := extractLsb'_fields 0#14 port level 0x06#8
    simp [Instr.op, Instr.header, Instr.operands, assembleOperands, hlevel, hport]

/-- Settles O1: the header selects the command's row, and operand assembly reads its operands and leaves what follows. -/
theorem decodeReadsEveryEncodedCommand : Obligations.DecodeReadsEveryEncodedCommand := by
  intro i rest
  simp [encode, decode, decodeHeader_header, assembleOperands_encode]

/-- Operand assembly drops no bit: the fields, the opcode and the reserved bits are the whole header, and the operand words are the
command's (R72 to R77). -/
theorem encode_of_assembleOperands {r : Op} {h : Word} {ws rest : List Word} {i : Instr} (hr : h &&& opMask r = opMatch r)
    (e : assembleOperands r h ws = some (i, rest)) : i.header = h ∧ i.operands ++ rest = ws := by
  obtain ⟨hcode, hres⟩ := (header_matches_iff r h).mp hr
  cases r with
  | solve | setfreq =>
    match ws, e with
    | t0 :: t1 :: r0 :: r1 :: _, rfl =>
      exact ⟨append_two_fields hres hcode, by simp [Instr.operands, splitWords_append]⟩
  | proj =>
    match ws, e with
    | n :: fm :: r0 :: r1 :: _, rfl =>
      have hfm : fm.extractLsb' 16 16 ++ fm.extractLsb' 0 16 = fm := append_two_fields rfl rfl
      exact ⟨append_three_fields hres hcode, by simp [Instr.operands, splitWords_append, hfm]⟩
  | reset | flush | lockq =>
    cases e
    exact ⟨append_two_fields hres hcode, rfl⟩
  | setf =>
    match ws, e with
    | v :: _, rfl => exact ⟨append_four_fields (u := 8) (v := 8) (w := 8) rfl hcode, rfl⟩
  | getf =>
    cases e
    exact ⟨append_four_fields (u := 8) (v := 8) (w := 8) rfl hcode, rfl⟩
  | outsel =>
    cases e
    exact ⟨append_four_fields (v := 1) (w := 1) hres hcode, rfl⟩
  | outpwr =>
    cases e
    exact ⟨append_four_fields (v := 2) (w := 8) hres hcode, rfl⟩

/-- Words that decode to a command are a legal header and words that its row assembles (R70, R79). -/
theorem legal_of_decode {ws rest : List Word} {i : Instr} (e : decode ws = .command i rest) :
    ∃ h ops r, ws = h :: ops ∧ decodeHeader h = some r ∧ assembleOperands r h ops = some (i, rest) := by
  match ws with
  | h :: ops =>
    simp only [decode] at e
    split at e
    · cases e
    · next r hr =>
      split at e
      · cases e
      · next hops =>
        cases e
        exact ⟨h, ops, r, rfl, hr, hops⟩

/-- Settles O2: the header and the operand words that a command is assembled from are its own. -/
theorem decodedWordsAreTheEncoding : Obligations.DecodedWordsAreTheEncoding := by
  intro ws i rest e
  obtain ⟨h, ops, r, rfl, hr, hops⟩ := legal_of_decode e
  obtain ⟨hheader, hoperands⟩ := encode_of_assembleOperands (decodeHeader_eq_some_iff.mp hr) hops
  rw [encode, List.cons_append, hheader, hoperands]

/-! ### Illegal headers -/

/-- The opcodes outside the table, in the words of R79, are those of no row. -/
theorem opcode_unlisted_iff (c : BitVec 8) :
    (c.toNat = 0x00 ∨ (0x08 ≤ c.toNat ∧ c.toNat ≤ 0x0F) ∨ 0x13 ≤ c.toNat) ↔ ∀ r ∈ opRows, c ≠ opCode r := by
  revert c
  decide

/-- A header with a row's opcode is illegal where one of the row's reserved bits is set (R79). -/
theorem headerIllegal_of_opcode {h : Word} {r : Op} (hcode : h.extractLsb' 0 8 = opCode r) :
    HeaderIllegal h ↔ h.extractLsb' (reservedFrom r) (32 - reservedFrom r) ≠ 0 := by
  have hnat : opcodeOf h = (opCode r).toNat := congrArg BitVec.toNat hcode
  cases r <;> simp [HeaderIllegal, hnat, opCode, reservedFrom]

/-- The rule's words for an illegal header say that no row selects it (R79). -/
theorem headerIllegal_iff (h : Word) : HeaderIllegal h ↔ ∀ r, h &&& opMask r ≠ opMatch r := by
  by_cases hrow : ∃ r, h.extractLsb' 0 8 = opCode r
  · obtain ⟨r, hcode⟩ := hrow
    rw [headerIllegal_of_opcode hcode]
    constructor
    · intro hres r' hr'
      obtain ⟨hcode', hres'⟩ := (header_matches_iff r' h).mp hr'
      obtain rfl := opCode_injective (hcode.symm.trans hcode')
      exact hres hres'
    · exact fun hnone hres => hnone r ((header_matches_iff r h).mpr ⟨hcode, hres⟩)
  · have outside := (opcode_unlisted_iff (h.extractLsb' 0 8)).mpr fun r _ hr => hrow ⟨r, hr⟩
    refine iff_of_true ?_ fun r hr => hrow ⟨r, ((header_matches_iff r h).mp hr).1⟩
    exact outside.elim .inl fun hn => .inr (hn.elim .inl fun hn => .inr (.inl hn))

theorem decode_eq_illegal_iff (h : Word) (ws : List Word) : decode (h :: ws) = .illegal h ↔ HeaderIllegal h := by
  rw [headerIllegal_iff, ← decodeHeader_eq_none_iff]
  simp only [decode]
  split
  · simp [*]
  · split <;> simp [*]

/-- Settles O3: an illegal header is one no row selects, and a ready block that is offered one raises the fault at decode. -/
theorem illegalHeadersFaultAtDecode : Obligations.IllegalHeadersFaultAtDecode := by
  refine ⟨decode_eq_illegal_iff, fun s h more hseq hfault hinbox hill => ?_⟩
  have hwords : offeredWords s.inbox = h :: offeredWords more := by rw [hinbox]; rfl
  have hdecode := (decode_eq_illegal_iff h (offeredWords more)).mpr hill
  rw [step_eq_takeCommand hseq hfault (by simp [hwords]), takeCommand, hwords, hdecode, hinbox]
  rfl

/-! ### The assembler -/

theorem wellFormed_setf {reg hi lo value : Nat} :
    (AsmLine.setf reg hi lo value).wellFormed = true ↔ reg < 2 ^ 8 ∧ hi < 2 ^ 8 ∧ lo < 2 ^ 8 ∧ value < 2 ^ 32 := by
  simp [AsmLine.wellFormed, and_assoc]

theorem wellFormed_getf {reg hi lo : Nat} :
    (AsmLine.getf reg hi lo).wellFormed = true ↔ reg < 2 ^ 8 ∧ hi < 2 ^ 8 ∧ lo < 2 ^ 8 := by
  simp [AsmLine.wellFormed, and_assoc]

theorem wellFormed_outsel {ena enb : Nat} : (AsmLine.outsel ena enb).wellFormed = true ↔ ena < 2 ∧ enb < 2 := by
  simp [AsmLine.wellFormed]

theorem wellFormed_outpwr {level : Int} {port : BitVec 2} :
    (AsmLine.outpwr level port).wellFormed = true ↔ -128 ≤ level ∧ level ≤ 127 := by
  simp [AsmLine.wellFormed]

theorem wellFormed_solve {targetHz refHz : Nat} :
    (AsmLine.solve targetHz refHz).wellFormed = true ↔ targetHz < 2 ^ 64 ∧ refHz < 2 ^ 64 := by
  simp [AsmLine.wellFormed]

theorem wellFormed_setfreq {targetHz refHz : Nat} :
    (AsmLine.setfreq targetHz refHz).wellFormed = true ↔ targetHz < 2 ^ 64 ∧ refHz < 2 ^ 64 :=
  wellFormed_solve

theorem wellFormed_proj {n frac modulus diva refHz : Nat} :
    (AsmLine.proj n frac modulus diva refHz).wellFormed = true ↔
      n < 2 ^ 32 ∧ frac < 2 ^ 16 ∧ modulus < 2 ^ 16 ∧ diva < 2 ^ 8 ∧ refHz < 2 ^ 64 := by
  simp [AsmLine.wellFormed, and_assoc]

theorem assembleLine_of_fits {l : AsmLine} (fits : l.wellFormed = true) : assembleLine l = some (encode (lineInstr l)) :=
  if_pos fits

theorem assembleLine_eq_none_iff {l : AsmLine} : assembleLine l = none ↔ ¬ l.wellFormed = true := by
  simp [assembleLine]

/-- Lines that are refused alike and stand for the same command assemble alike. -/
theorem assembleLine_congr {l l' : AsmLine} (fit : l.wellFormed = l'.wellFormed) (same : lineInstr l = lineInstr l') :
    assembleLine l = assembleLine l' := by
  rw [assembleLine, assembleLine, fit, same]

/-- Settles O7: a line and its expansion have the same fit check and stand for the same command. -/
theorem pseudoCommandsExpand : Obligations.PseudoCommandsExpand :=
  ⟨fun _ => assembleLine_congr rfl rfl, fun _ => assembleLine_congr rfl rfl, fun _ => assembleLine_congr rfl rfl,
    fun _ => assembleLine_congr rfl rfl, assembleLine_congr rfl rfl, assembleLine_congr rfl rfl⟩

/-- Settles O6: a line is refused where it does not fit, and what fits a field is the field's value. -/
theorem assemblerRefusesWhatDoesNotFit : Obligations.AssemblerRefusesWhatDoesNotFit := by
  have taken : ∀ {l : AsmLine}, assembleLine l ≠ none → l.wellFormed = true :=
    fun h => Classical.not_not.mp fun hfit => h (assembleLine_eq_none_iff.mpr hfit)
  refine ⟨fun reg hi lo value => ⟨?_, fun h => ?_⟩, fun reg hi lo => ⟨?_, fun h => ?_⟩, fun ena enb => ⟨?_, fun h => ?_⟩,
    fun level port => ⟨?_, fun h => ?_⟩, fun targetHz refHz => ⟨?_, ?_, fun ht hr => ?_⟩,
    fun n frac modulus diva refHz => ⟨?_, fun h => ?_⟩, fun n => ?_, rfl, rfl, rfl, by decide, by decide⟩
  · rw [assembleLine_eq_none_iff, wellFormed_setf]
    omega
  · obtain ⟨hreg, hhi, hlo, hvalue⟩ := wellFormed_setf.mp (taken h)
    exact ⟨_, _, _, _, assembleLine_of_fits (taken h), Nat.mod_eq_of_lt hreg, Nat.mod_eq_of_lt hhi, Nat.mod_eq_of_lt hlo,
      Nat.mod_eq_of_lt hvalue⟩
  · rw [assembleLine_eq_none_iff, wellFormed_getf]
    omega
  · obtain ⟨hreg, hhi, hlo⟩ := wellFormed_getf.mp (taken h)
    exact ⟨_, _, _, assembleLine_of_fits (taken h), Nat.mod_eq_of_lt hreg, Nat.mod_eq_of_lt hhi, Nat.mod_eq_of_lt hlo⟩
  · rw [assembleLine_eq_none_iff, wellFormed_outsel]
    omega
  · obtain ⟨hena, henb⟩ := wellFormed_outsel.mp (taken h)
    exact ⟨_, _, assembleLine_of_fits (taken h), Nat.mod_eq_of_lt hena, Nat.mod_eq_of_lt henb⟩
  · rw [assembleLine_eq_none_iff, wellFormed_outpwr]
    omega
  · obtain ⟨hlow, hhigh⟩ := wellFormed_outpwr.mp (taken h)
    exact ⟨_, assembleLine_of_fits (taken h), BitVec.toInt_ofInt_eq_self (by decide) hlow (by omega)⟩
  · rw [assembleLine_eq_none_iff, wellFormed_solve]
    omega
  · rw [assembleLine_eq_none_iff, wellFormed_setfreq]
    omega
  · exact ⟨.ofNat 64 targetHz, .ofNat 64 refHz, Nat.mod_eq_of_lt ht, Nat.mod_eq_of_lt hr,
      assembleLine_of_fits (wellFormed_solve.mpr ⟨ht, hr⟩), assembleLine_of_fits (wellFormed_setfreq.mpr ⟨ht, hr⟩)⟩
  · rw [assembleLine_eq_none_iff, wellFormed_proj]
    omega
  · obtain ⟨hn, hfrac, hmodulus, hdiva, href⟩ := wellFormed_proj.mp (taken h)
    exact ⟨_, _, _, _, _, assembleLine_of_fits (taken h), Nat.mod_eq_of_lt hn, Nat.mod_eq_of_lt hfrac,
      Nat.mod_eq_of_lt hmodulus, Nat.mod_eq_of_lt hdiva, Nat.mod_eq_of_lt href⟩
  · obtain ⟨setn, setfrac, setmod, setdiva, -, -⟩ := pseudoCommandsExpand
    rw [setn, setfrac, setmod, setdiva]
    simp only [assembleLine_eq_none_iff, wellFormed_setf]
    omega

/-- Settles O5: each text is read and assembled, and each row of words decoded, by evaluation. -/
theorem specExamplesAssembleAndDecode : Obligations.SpecExamplesAssembleAndDecode := by
  unfold Obligations.SpecExamplesAssembleAndDecode
  decide

/-! ### Response words -/

/-- Field writes and the write-back after them return no response. -/
theorem OnlyShadow.responses_writeBack {s u : State} (h : OnlyShadow s u) : (writeBack u).responses = s.responses := by
  obtain ⟨rs, d, rfl⟩ := h
  obtain ⟨es, e⟩ := writeBack_keeps { s with regs := rs, dirty := d }
  rw [e]

/-- Settles O18: SOLVE, PROJ, GETF and LOCKQ answer their words, and a field write or a write-back answers none. -/
theorem responseWordCountIsFixedByOpcode : Obligations.ResponseWordCountIsFixedByOpcode := by
  intro i s t _ h hfault
  have unanswered : ∀ {u : State}, u.responses = s.responses → responseWords i.op = 0 →
      u.responses.length = s.responses.length + responseWords i.op := fun hu h0 => by rw [hu, h0, Nat.add_zero]
  cases exec_cases h with
  | raised => cases hfault
  | answered ws len => rw [List.length_append, len]
  | sampled hi =>
    obtain ⟨_, _, e⟩ := sampleLD_keeps s
    rw [respond_responses, e, hi, List.length_append]
    rfl
  | fieldSet _ _ _ _ hi => exact unanswered (by rw [setField_frame]) (by rw [hi]; rfl)
  | ignored hi => exact unanswered rfl (by rw [hi]; rfl)
  | coldStarted hi => exact unanswered (OnlyShadow.refl (loadDefaults s)).responses_writeBack (by rw [hi]; rfl)
  | flushed hi => exact unanswered (OnlyShadow.refl s).responses_writeBack (by rw [hi]; rfl)
  | selected _ _ hi => exact unanswered (selectOutputs_keeps ..).responses_writeBack (by rw [hi]; rfl)
  | powered _ _ _ hi => exact unanswered (setPowerFields_keeps ..).responses_writeBack (by rw [hi]; rfl)
  | programmed _ _ hi => exact unanswered (programDividers_keeps ..).responses_writeBack (by rw [hi]; rfl)

/-! ### A block that waits -/

theorem offeredWords_words (ws : List Word) : offeredWords (ws.map .word) = ws := by
  induction ws with
  | nil => rfl
  | cons w ws ih => exact congrArg (w :: ·) ih

/-- Settles O13: words alone hold no power-on reset, so a block that cannot decode them waits as it is. -/
theorem readyBlockWaitsForAWholeCommand : Obligations.ReadyBlockWaitsForAWholeCommand := by
  intro s ws hseq hfault hinbox hdecode
  have takes : step s = takeCommand s := by
    cases ws <;> simp [step, stepPort, hinbox, hfault, hseq]
  have noReset : afterPowerOn s.inbox = none := by
    rw [hinbox, ← List.append_nil (ws.map _), afterPowerOn_words]
    rfl
  rw [takes, takeCommand, hinbox, offeredWords_words, hdecode]
  simp only [await, noReset]

end Sys2Proof.Machine

/-! PROOFS. The family 40_solver.md: the integer search against the exact pseudocode, the doubling, the best modulus, the error bound,
and the commands that answer or program a solution. -/

namespace Sys2Proof.Machine

/-! ### Rounding -/

/-- The model's floor as a natural number is Mathlib's: both give 0 below 0. -/
theorem floor_toNat_eq (x : Rat) : x.floor.toNat = ⌊x⌋₊ := by
  rw [show x.floor = ⌊x⌋ from rfl, Int.floor_toNat]

theorem roundHalfUp_eq_floor (x : Rat) : roundHalfUp x = ⌊x + 1 / 2⌋₊ := floor_toNat_eq _

/-- The integer that a number is within half of, its own half included (R12). -/
theorem roundHalfUp_of_near {x : Rat} {f : Nat} (low : (f : Rat) - 1 / 2 ≤ x) (high : x < f + 1 / 2) : roundHalfUp x = f := by
  have f_nonneg : (0 : Rat) ≤ f := f.cast_nonneg
  rw [roundHalfUp_eq_floor, Nat.floor_eq_iff (by linarith)]
  constructor <;> linarith

theorem roundHalfUp_near {x : Rat} (hx : 0 ≤ x) : |(roundHalfUp x : Rat) - x| ≤ 1 / 2 := by
  have low := Nat.floor_le (show 0 ≤ x + 1 / 2 by linarith)
  have high := Nat.lt_floor_add_one (x + 1 / 2)
  rw [roundHalfUp_eq_floor, abs_le]
  constructor <;> linarith

theorem abs_mul_of_pos {a c : Rat} (hc : 0 < c) : |a| * c = |a * c| := by
  rw [abs_mul, abs_of_pos hc]

/-- Modulus `m` meets a fraction within `1 / (2 * m)` (R104). -/
theorem roundHalfUp_div_near {x : Rat} {m : Nat} (hx : 0 ≤ x) (hm : 0 < m) :
    |(roundHalfUp (x * m) : Rat) / m - x| ≤ 1 / (2 * m) := by
  have m_pos : (0 : Rat) < m := Nat.cast_pos.mpr hm
  have near := roundHalfUp_near (mul_nonneg hx m_pos.le)
  have scaled : |(roundHalfUp (x * m) : Rat) / m - x| * m = |(roundHalfUp (x * m) : Rat) - x * m| := by
    rw [abs_mul_of_pos m_pos, sub_mul, div_mul_cancel₀ _ m_pos.ne']
  rw [← mul_le_mul_iff_left₀ m_pos, scaled, one_div_mul_eq_div, div_mul_cancel_right₀ m_pos.ne']
  linarith

/-! ### The search in rationals -/

section
variable {p q : Nat}

/-- A candidate's error, from its scaled error (R105). -/
theorem error_eq {f m : Nat} (hq : 0 < q) (hm : 0 < m) :
    |(f : Rat) / m - (p : Rat) / q| = (scaledError p q { f := f, m := m } : Rat) / (q * m) := by
  rw [scaledError_eq hq hm, mul_div_cancel_right₀ _ (by positivity)]

/-- A candidate is at least as good as another where its scaled error is at most the other's by cross-multiplication (R105). -/
theorem error_le_iff {f g m k : Nat} (hq : 0 < q) (hm : 0 < m) (hk : 0 < k) :
    |(f : Rat) / m - (p : Rat) / q| ≤ |(g : Rat) / k - (p : Rat) / q| ↔
      scaledError p q { f := f, m := m } * k ≤ scaledError p q { f := g, m := k } * m := by
  have q_pos : (0 : Rat) < q := Nat.cast_pos.mpr hq
  rw [error_eq hq hm, error_eq hq hk, div_le_div_iff₀ (by positivity) (by positivity), mul_left_comm, mul_left_comm _ (q : Rat),
    mul_le_mul_iff_right₀ q_pos]
  exact_mod_cast Iff.rfl

theorem error_lt_iff {f g m k : Nat} (hq : 0 < q) (hm : 0 < m) (hk : 0 < k) :
    |(f : Rat) / m - (p : Rat) / q| < |(g : Rat) / k - (p : Rat) / q| ↔
      scaledError p q { f := f, m := m } * k < scaledError p q { f := g, m := k } * m := by
  rw [← not_le, error_le_iff hq hk hm, not_le]

/-- The search meets a remainder as near as any modulus can, and only smaller moduli meet it as near (R104, R105). -/
theorem search_best (hp : p < q) :
    (search p q).f = roundHalfUp ((p : Rat) / q * (search p q).m) ∧ 2 ≤ (search p q).m ∧ (search p q).m ≤ 4095 ∧
    ∀ m : Nat, 2 ≤ m → m ≤ 4095 →
      |((search p q).f : Rat) / (search p q).m - (p : Rat) / q| ≤
          |(roundHalfUp ((p : Rat) / q * m) : Rat) / m - (p : Rat) / q| ∧
      ((search p q).m < m →
        |((search p q).f : Rat) / (search p q).m - (p : Rat) / q| <
          |(roundHalfUp ((p : Rat) / q * m) : Rat) / m - (p : Rat) / q|) := by
  obtain ⟨visited, low, high, best⟩ := search_spec p q
  refine ⟨?_, low, high, fun m hm2 hm => ?_⟩
  · rw [← roundedNumerator_eq_roundHalfUp hp high]
    exact congrArg Candidate.f visited
  · rw [← roundedNumerator_eq_roundHalfUp hp hm, error_le_iff (by omega) (by omega) (by omega),
      error_lt_iff (by omega) (by omega) (by omega)]
    exact best m hm2 hm

theorem search_f_le_m (hp : p < q) : (search p q).f ≤ (search p q).m := by
  obtain ⟨visited, -, high, -⟩ := search_spec p q
  have rounded : (search p q).f = roundedNumerator p q (search p q).m := congrArg Candidate.f visited
  rw [rounded, roundedNumerator_eq hp high]
  exact rounded_le hp

/-- The largest modulus alone meets the bound (R113). -/
theorem search_near (hp : p < q) : |((search p q).f : Rat) / (search p q).m - (p : Rat) / q| ≤ 1 / 8190 := by
  obtain ⟨-, -, -, best⟩ := search_best hp
  obtain ⟨le, -⟩ := best 4095 (by norm_num) le_rfl
  have near := roundHalfUp_div_near (x := (p : Rat) / q) (m := 4095) (by positivity) (by norm_num)
  norm_num at le near ⊢
  exact le.trans near

/-- Just below 1 every modulus meets the remainder with itself as the numerator, so the largest one stands (R107). -/
theorem search_of_near_one (hp : p < q) (h : (1 : Rat) - 1 / 8190 < (p : Rat) / q) :
    (search p q).f = 4095 ∧ (search p q).m = 4095 := by
  have below : (p : Rat) / q < 1 := (div_lt_one (Nat.cast_pos.mpr (by omega))).mpr (Nat.cast_lt.mpr hp)
  have rounds : ∀ m : Nat, 2 ≤ m → m ≤ 4095 → roundHalfUp ((p : Rat) / q * m) = m := fun m hm2 hm => by
    have m_low : (2 : Rat) ≤ m := by exact_mod_cast hm2
    have m_high : (m : Rat) ≤ 4095 := by exact_mod_cast hm
    exact roundHalfUp_of_near (by nlinarith) (by nlinarith)
  obtain ⟨numerator, low, high, best⟩ := search_best hp
  have f_eq_m : (search p q).f = (search p q).m := numerator.trans (rounds _ low high)
  have m_eq : (search p q).m = 4095 := by
    by_contra hne
    have better := (best 4095 (by norm_num) le_rfl).2 (by omega)
    have m_ne : ((search p q).m : Rat) ≠ 0 := Nat.cast_ne_zero.mpr (by omega)
    rw [rounds 4095 (by norm_num) le_rfl, f_eq_m, div_self m_ne, div_self (by norm_num)] at better
    exact lt_irrefl _ better
  exact ⟨f_eq_m.trans m_eq, m_eq⟩

/-! ### Exact moduli -/

theorem scaledError_eq_zero_iff {c : Candidate} : scaledError p q c = 0 ↔ q * c.f = p * c.m := by
  unfold scaledError
  omega

/-- A modulus that meets the remainder exactly rounds to its numerator (R106). -/
theorem roundedNumerator_of_exact {f m : Nat} (hp : p < q) (hm : m ≤ 4095) (h : p * m = f * q) : roundedNumerator p q m = f := by
  rw [roundedNumerator_eq hp hm, h, show 2 * (f * q) + q = q + f * (2 * q) by ring, Nat.add_mul_div_right _ _ (by omega),
    Nat.div_eq_of_lt (by omega), Nat.zero_add]

/-- Where a modulus meets the remainder exactly, the search does, and its modulus is not smaller (R105, R106). -/
theorem search_of_exact {f m : Nat} (hp : p < q) (hm2 : 2 ≤ m) (hm : m ≤ 4095) (h : p * m = f * q) :
    q * (search p q).f = p * (search p q).m ∧ m ≤ (search p q).m := by
  obtain ⟨-, -, -, best⟩ := search_spec p q
  have exact_m : scaledError p q (candidate p q m) = 0 := by
    rw [scaledError_eq_zero_iff]
    simp only [candidate, roundedNumerator_of_exact hp hm h, h, Nat.mul_comm]
  obtain ⟨le, lt⟩ := best m hm2 hm
  rw [exact_m, Nat.zero_mul] at le lt
  refine ⟨scaledError_eq_zero_iff.mp ?_, Nat.not_lt.mp fun hlt => Nat.not_lt_zero _ (lt hlt)⟩
  exact (Nat.mul_eq_zero.mp (Nat.le_zero.mp le)).resolve_right (by omega)

/-- A remainder equal to `a / b` in lowest terms is met by the multiples of `b` alone (R106). -/
theorem search_of_lowest_terms {a b : Nat} (hp : p < q) (hb1 : 1 ≤ b) (hb : b ≤ 4095) (coprime : Nat.Coprime a b)
    (h : p * b = a * q) : (search p q).m = b * (4095 / b) ∧ (search p q).f = a * (4095 / b) := by
  have largest : b * (4095 / b) ≤ 4095 := Nat.mul_div_le 4095 b
  have above : 4095 < b * (4095 / b) + b := by
    have := Nat.div_add_mod 4095 b
    have := Nat.mod_lt 4095 hb1
    omega
  have two_le : 2 ≤ b * (4095 / b) := by
    rcases hb1.eq_or_lt with rfl | hb2
    · norm_num
    · exact hb2.trans_le (Nat.le_mul_of_pos_right b (Nat.div_pos hb hb1))
  obtain ⟨met, m_ge⟩ := search_of_exact (f := a * (4095 / b)) hp two_le largest (by rw [← Nat.mul_assoc, h]; ring)
  obtain ⟨-, -, high, -⟩ := search_spec p q
  have ratio : (search p q).f * b = a * (search p q).m := by
    refine Nat.eq_of_mul_eq_mul_left (show 0 < q by omega) ?_
    calc q * ((search p q).f * b) = q * (search p q).f * b := by ring
      _ = p * b * (search p q).m := by rw [met]; ring
      _ = q * (a * (search p q).m) := by rw [h]; ring
  obtain ⟨t, ht⟩ : b ∣ (search p q).m := coprime.symm.dvd_of_dvd_mul_left ⟨_, by rw [← ratio, Nat.mul_comm]⟩
  have t_eq : t = 4095 / b := by
    refine le_antisymm ((Nat.le_div_iff_mul_le hb1).mpr (by rwa [Nat.mul_comm, ← ht])) ?_
    exact Nat.le_of_mul_le_mul_left (by rwa [← ht]) hb1
  subst t_eq
  refine ⟨ht, Nat.eq_of_mul_eq_mul_right hb1 ?_⟩
  rw [ratio, ht]
  ring

end

/-! ### The solver -/

/-- Settles O42: the fuel reaches the bound, so the doublings stop at it. -/
theorem solverDoublesIntoTheVcoBand : Obligations.SolverDoublesIntoTheVcoBand := by
  intro targetHz refHz ht hr
  obtain ⟨j, hj, reached, before, solved⟩ := solve_parts refHz ht
  rw [solved]
  refine ⟨reached, before, hj, fun high => ?_, rfl⟩
  by_contra hne
  have low := before (Nat.pos_of_ne_zero hne)
  exact absurd (high.trans (Nat.le_mul_of_pos_right targetHz (by positivity))) (Nat.not_le.mpr low)

/-- Settles O43: the search on the remainder of the doubled target. -/
theorem solverPicksTheBestLargestModulus : Obligations.SolverPicksTheBestLargestModulus := by
  intro targetHz refHz ht hr
  obtain ⟨j, -, -, -, solved⟩ := solve_parts refHz ht
  simp only [solved]
  exact search_best (Nat.mod_lt _ hr)

/-- Settles O44: an exact modulus is found if there is one, and an exact result is itself such a fraction. -/
theorem solverMeetsSmallFractionsExactly : Obligations.SolverMeetsSmallFractionsExactly := by
  intro targetHz refHz ht hr
  obtain ⟨j, -, -, -, solved⟩ := solve_parts refHz ht
  simp only [solved]
  refine ⟨fun a b hb1 hb coprime h => search_of_lowest_terms (Nat.mod_lt _ hr) hb1 hb coprime h, fun none h => ?_⟩
  obtain ⟨-, low, high, -⟩ := search_spec (targetHz * 2 ^ j % refHz) refHz
  exact none _ _ (by omega) high h.symm

/-- Settles O45: the search's result just below 1, beside the floor. -/
theorem fracMayEqualTheModulus : Obligations.FracMayEqualTheModulus := by
  intro targetHz refHz ht hr
  obtain ⟨j, -, -, -, solved⟩ := solve_parts refHz ht
  rw [solved]
  intro d near
  obtain ⟨hf, hm⟩ := search_of_near_one (Nat.mod_lt _ hr) near
  exact ⟨hf, hm, rfl⟩

/-- The fraction that the floor of a ratio leaves is its remainder over its denominator (R103). -/
theorem ratio_sub_floor (v q : Nat) : (v : Rat) / q - (v / q : Nat) = ((v % q : Nat) : Rat) / q := by
  rw [← Int.fract_div_natCast_eq_div_natCast_mod, Int.fract, Rat.floor_natCast_div_natCast]
  rfl

/-- A VCO frequency over the floor of `v / q` misses `v` by the reference times what its fraction misses the remainder by (R103). -/
theorem vcoError_eq {v q : Nat} (hq : 0 < q) (x : Rat) :
    |(q : Rat) * ((v / q : Nat) + x) - v| = q * |x - ((v % q : Nat) : Rat) / q| := by
  have q_pos : (0 : Rat) < q := Nat.cast_pos.mpr hq
  rw [← ratio_sub_floor, mul_comm _ |_|, abs_mul_of_pos q_pos]
  congr 1
  field_simp
  ring

/-- Settles O46: the search's bound times the reference, and divided by the doublings for the output. -/
theorem solverErrorIsBounded : Obligations.SolverErrorIsBounded := by
  intro targetHz refHz ht hr
  obtain ⟨j, -, -, -, solved⟩ := solve_parts refHz ht
  simp only [solved, vcoHz, outputHz]
  have near := search_near (Nat.mod_lt (targetHz * 2 ^ j) hr)
  generalize search (targetHz * 2 ^ j % refHz) refHz = c at near
  have vco : |(refHz : Rat) * ((targetHz * 2 ^ j / refHz : Nat) + (c.f : Rat) / c.m) - targetHz * 2 ^ j| ≤ refHz / 8190 := by
    have e := vcoError_eq (v := targetHz * 2 ^ j) hr ((c.f : Rat) / c.m)
    push_cast at e
    rw [e, div_eq_mul_one_div (refHz : Rat)]
    exact mul_le_mul_of_nonneg_left near (Nat.cast_nonneg _)
  refine ⟨vco, ?_⟩
  have two_pos : (0 : Rat) < 2 ^ j := by positivity
  rw [← div_div, le_div_iff₀ two_pos, abs_mul_of_pos two_pos, sub_mul, div_mul_cancel₀ _ two_pos.ne']
  exact vco

/-! ### The exact pseudocode -/

/-- The exact doubling and the integer one are the same (R102). -/
theorem exactDouble_natCast (fuel v k : Nat) : exactDouble fuel v k = (((doubleUp fuel v k).1 : Rat), (doubleUp fuel v k).2) := by
  induction fuel generalizing v k with
  | zero => rfl
  | succ fuel ih =>
    have bound : (v : Rat) < 3000000000 ↔ v < vcoLow := by rw [vcoLow]; exact_mod_cast Iff.rfl
    rw [exactDouble, doubleUp]
    by_cases hv : v < vcoLow
    · rw [if_pos hv, if_pos (bound.mpr hv), ← ih]
      push_cast
      rfl
    · rw [if_neg hv, if_neg (mt bound.mp hv)]

@[simp] theorem candidate_m (p q m : Nat) : (candidate p q m).m = m := rfl

/-- A candidate of the integer search as R100's loop holds it: with its VCO error in hertz. -/
def withError (p q : Nat) (c : Candidate) : ExactCandidate := { f := c.f, m := c.m, err := (scaledError p q c : Rat) / c.m }

section
variable {p q : Nat}

theorem withError_err_eq_zero_iff {c : Candidate} (hm : 0 < c.m) : (withError p q c).err = 0 ↔ scaledError p q c = 0 := by
  have m_ne : (c.m : Rat) ≠ 0 := Nat.cast_ne_zero.mpr hm.ne'
  rw [withError, div_eq_zero_iff, Nat.cast_eq_zero, or_iff_left m_ne]

/-- Errors compare as the search compares them, by cross-multiplication (R105). -/
theorem withError_err_lt_iff {b c : Candidate} (hb : 0 < b.m) (hc : 0 < c.m) :
    (withError p q c).err < (withError p q b).err ↔ scaledError p q c * b.m < scaledError p q b * c.m := by
  rw [withError, withError, div_lt_div_iff₀ (Nat.cast_pos.mpr hc) (Nat.cast_pos.mpr hb)]
  exact_mod_cast Iff.rfl

theorem searchBelow_of_exact {c : Candidate} (h : scaledError p q c = 0) (k : Nat) : searchBelow p q k c = c := by
  cases k with
  | zero => rfl
  | succ k => rw [searchBelow, if_pos h]

end

section
variable {v q : Nat}

/-- A turn of R100's loop tries the search's candidate (R104). -/
theorem exactCandidate_eq (hq : 0 < q) {m : Nat} (hm0 : 0 < m) (hm : m ≤ 4095) :
    exactCandidate q v (((v % q : Nat) : Rat) / q) (v / q) m = withError (v % q) q (candidate (v % q) q m) := by
  have m_ne : (m : Rat) ≠ 0 := Nat.cast_ne_zero.mpr hm0.ne'
  simp only [exactCandidate, withError, candidate, ← roundedNumerator_eq_roundHalfUp (Nat.mod_lt v hq) hm, vcoError_eq hq,
    scaledError_eq hq hm0]
  rw [show roundedNumerator (v % q) q m % 2 ^ 12 = roundedNumerator (v % q) q m from Nat.mod_mod _ _, ← mul_assoc,
    mul_div_cancel_right₀ _ m_ne, mul_comm]

/-- With a candidate in hand that is not exact, R100's loop ends where the search does (R104, R105). -/
theorem exactLoop_some (hq : 0 < q) {k : Nat} (hk : k ≤ 4094) {b : Candidate} (hb : 0 < b.m)
    (inexact : scaledError (v % q) q b ≠ 0) :
    exactLoop q v (((v % q : Nat) : Rat) / q) (v / q) k (some (withError (v % q) q b)) =
      some (withError (v % q) q (searchBelow (v % q) q k b)) := by
  induction k generalizing b with
  | zero => rfl
  | succ k ih =>
    have hc : 0 < (candidate (v % q) q (k + 2)).m := Nat.succ_pos _
    rw [exactLoop, exactCandidate_eq hq (by omega) (by omega), searchBelow, if_neg inexact]
    simp only [withError_err_lt_iff hb hc, withError_err_eq_zero_iff hc, candidate_m]
    by_cases better : scaledError (v % q) q (candidate (v % q) q (k + 2)) * b.m < scaledError (v % q) q b * (k + 2)
    · simp only [if_pos better]
      split
      · next exact_c => rw [searchBelow_of_exact exact_c]
      · next inexact_c => exact ih (by omega) hc inexact_c
    · have inexact_c : scaledError (v % q) q (candidate (v % q) q (k + 2)) ≠ 0 := fun h => by
        rw [h, Nat.zero_mul] at better
        exact better (Nat.mul_pos (Nat.pos_of_ne_zero inexact) (by omega))
      simp only [if_neg better, if_neg inexact_c]
      exact ih (by omega) hb inexact

/-- R100's whole loop, from no candidate, is the search. -/
theorem exactLoop_none (hq : 0 < q) :
    exactLoop q v (((v % q : Nat) : Rat) / q) (v / q) 4094 none = some (withError (v % q) q (search (v % q) q)) := by
  have hc : 0 < (candidate (v % q) q 4095).m := Nat.succ_pos _
  rw [exactLoop, exactCandidate_eq hq (by omega) (by omega), search]
  simp only [Nat.reduceAdd, withError_err_eq_zero_iff hc]
  split
  · next exact_c => rw [searchBelow_of_exact exact_c]
  · next inexact_c => exact exactLoop_some hq (by omega) hc inexact_c

end

/-- Settles O40: the doublings agree, the ratio's floor and remainder are the integer ones, and the loop is the search. -/
theorem solverIsTheExactPseudocode : Obligations.SolverIsTheExactPseudocode := by
  intro targetHz refHz ht hr
  have floor (v : Nat) : ((v : Rat) / refHz).floor.toNat = v / refHz := by rw [floor_toNat_eq, Nat.floor_div_eq_div]
  simp only [exactSolve, exactDouble_natCast, div_one, floor, ratio_sub_floor, exactLoop_none hr, Option.map_some,
    withError, solve, rDiv, Nat.div_one]

/-! ### SOLVE and PROJ -/

section
variable {targetHz refHz : BitVec 64} {s : State}

theorem exec_solve_of_zero (h : targetHz = 0 ∨ refHz = 0) : exec (.solve targetHz refHz) s = raise .solveDomain 0x00000010 s :=
  if_pos h

theorem exec_solve_of_ne_zero (ht : targetHz ≠ 0) (hr : refHz ≠ 0) :
    exec (.solve targetHz refHz) s = .next (respond (solveResponse (solve targetHz.toNat refHz.toNat)) s) :=
  if_neg (not_or.mpr ⟨ht, hr⟩)

theorem exec_setfreq_of_zero (hmode : s.mode ≠ .uninit) (h : targetHz = 0 ∨ refHz = 0) :
    exec (.setfreq targetHz refHz) s = raise .solveDomain 0x00000012 s :=
  (unlessUninit_of_ne hmode _ _).trans (if_pos h)

theorem exec_setfreq_of_ne_zero (hmode : s.mode ≠ .uninit) (ht : targetHz ≠ 0) (hr : refHz ≠ 0) :
    exec (.setfreq targetHz refHz) s = .next (writeBack (programDividers (solve targetHz.toNat refHz.toNat) s)) :=
  (unlessUninit_of_ne hmode _ _).trans (if_neg (not_or.mpr ⟨ht, hr⟩))

end

section
variable {n : Word} {frac modulus : BitVec 16} {diva : BitVec 8} {refHz : BitVec 64} {s : State}

theorem exec_proj_of_zero (h : modulus = 0 ∨ refHz = 0) :
    exec (.proj n frac modulus diva refHz) s = raise .projDomain (Instr.proj n frac modulus diva refHz).header s :=
  if_pos h

theorem exec_proj_of_ne_zero (hm : modulus ≠ 0) (hr : refHz ≠ 0) :
    exec (.proj n frac modulus diva refHz) s =
      .next (respond (projectResponse (projectNumerator n.toNat frac.toNat modulus.toNat refHz.toNat)) s) :=
  if_neg (not_or.mpr ⟨hm, hr⟩)

end

/-- Settles O15: each command checks its operands first, SETFREQ after its mode. -/
theorem domainFaultsAreRecorded : Obligations.DomainFaultsAreRecorded :=
  ⟨fun _ _ _ h => exec_solve_of_zero h, fun _ _ _ h hmode => exec_setfreq_of_zero hmode h,
    fun _ _ _ _ _ _ h => exec_proj_of_zero h⟩

/-- The solved N fits two words: the doubling passes the bound by less than a factor of 2 (R102, R108). -/
theorem solve_n_lt {targetHz refHz : Nat} (ht : 0 < targetHz) (ht64 : targetHz < 2 ^ 64) : (solve targetHz refHz).n < 2 ^ 64 := by
  obtain ⟨j, -, -, before, solved⟩ := solve_parts refHz ht
  have doubled : targetHz * 2 ^ j < 2 ^ 64 := by
    cases j with
    | zero => simpa using ht64
    | succ j =>
      have := before (Nat.succ_pos j)
      rw [Nat.add_sub_cancel, vcoLow] at this
      rw [pow_succ, ← Nat.mul_assoc]
      omega
  rw [solved]
  exact (Nat.div_le_self _ _).trans_lt doubled

/-- R101, R105, R107: what every solution's fields lie within. -/
theorem solve_bounds {targetHz refHz : Nat} (ht : 0 < targetHz) (hr : 0 < refHz) :
    2 ≤ (solve targetHz refHz).modulus ∧ (solve targetHz refHz).modulus ≤ 4095 ∧
      (solve targetHz refHz).frac ≤ (solve targetHz refHz).modulus ∧ (solve targetHz refHz).diva ≤ 32 ∧
      (solve targetHz refHz).fpfd = refHz := by
  obtain ⟨j, hj, -, -, solved⟩ := solve_parts refHz ht
  rw [solved]
  obtain ⟨-, low, high, -⟩ := search_spec (targetHz * 2 ^ j % refHz) refHz
  exact ⟨low, high, search_f_le_m (Nat.mod_lt _ hr), hj, rfl⟩

/-- Settles O41: the response is the solution's words, and the bounds of a solution. -/
theorem solveAnswersTheDividers : Obligations.SolveAnswersTheDividers := by
  intro targetHz refHz s ht hr
  obtain ⟨low, high, frac_le, diva_le, fpfd⟩ := solve_bounds (BitVec.toNat_pos_of_ne_zero ht) (BitVec.toNat_pos_of_ne_zero hr)
  refine ⟨?_, solve_n_lt (BitVec.toNat_pos_of_ne_zero ht) targetHz.isLt, low, high, frac_le, diva_le, fpfd⟩
  rw [exec_solve_of_ne_zero ht hr, solveResponse, fpfd, splitWords_two]
  rfl

/-- Settles O47: PROJ's two cases, the sizes of its operands, and the output frequency over its denominator. -/
theorem projAnswersTheExactNumerator : Obligations.ProjAnswersTheExactNumerator := by
  intro n frac modulus diva refHz s
  refine ⟨exec_proj_of_zero, fun hm hr => ⟨?_, ?_, ?_⟩⟩
  · rw [exec_proj_of_ne_zero hm hr]
    simp only [projectNumerator, projectResponse, splitWords, rDiv, Nat.div_one, Nat.div_div_eq_div_mul, respond]
    rfl
  · have ratio : n.toNat * modulus.toNat + frac.toNat < 2 ^ 64 := by
      have := Nat.mul_le_mul n.isLt.le modulus.isLt.le
      have := frac.isLt
      omega
    calc refHz.toNat * (n.toNat * modulus.toNat + frac.toNat) < 2 ^ 64 * 2 ^ 64 := Nat.mul_lt_mul'' refHz.isLt ratio
      _ = 2 ^ 128 := by norm_num
  · have m_ne : (modulus.toNat : Rat) ≠ 0 := Nat.cast_ne_zero.mpr (BitVec.toNat_pos_of_ne_zero hm).ne'
    rw [outputHz]
    push_cast
    field_simp

/-! ### SETFREQ -/

/-- A field just written reads as the value, truncated to its width (R133, R187). -/
theorem extractLsb'_insertBits {hi lo : Nat} (value : Nat) (old : Word) (hlh : lo ≤ hi) (hh : hi < 32) :
    (insertBits hi lo value old).extractLsb' lo (hi - lo + 1) = BitVec.ofNat (hi - lo + 1) value := by
  refine BitVec.eq_of_getLsbD_eq fun j hj => ?_
  rw [BitVec.getLsbD_extractLsb', insertBits_getLsbD value old hlh (by omega), if_pos (by omega), Nat.add_sub_cancel_left,
    BitVec.getLsbD_ofNat]

/-- A field write leaves the fields beside it (R133). -/
theorem extractLsb'_insertBits_of_disjoint {hi lo start len : Nat} (value : Nat) (old : Word) (hlh : lo ≤ hi)
    (fits : start + len ≤ 32) (disjoint : start + len ≤ lo ∨ hi < start) :
    (insertBits hi lo value old).extractLsb' start len = old.extractLsb' start len := by
  refine BitVec.eq_of_getLsbD_eq fun j hj => ?_
  rw [BitVec.getLsbD_extractLsb', BitVec.getLsbD_extractLsb', insertBits_getLsbD value old hlh (by omega), if_neg (by omega)]

/-- The register that a field write names, where it is accepted (R130). -/
theorem readReg_setField_of_eq {reg hi lo : Nat} {j : Fin 7} (h : j.val = reg) (hl : 3 ≤ lo) (hlh : lo ≤ hi) (hh : hi ≤ 31)
    (value : Nat) (s : State) : readReg j (setField reg hi lo value s) = insertBits hi lo value (readReg j s) := by
  have named : Fin.ofNat 7 reg = j := Fin.ext (by rw [Fin.val_ofNat, ← h, Nat.mod_eq_of_lt j.isLt])
  rw [setField_accepts value s (by omega) (by omega) (by omega), named, readReg_withReg, if_pos rfl, max_eq_left hlh,
    min_eq_right hlh]

section
variable (d : DividerState) (s : State)

/-- The words SETFREQ's field writes leave in registers 0, 1 and 4 (R186). -/
theorem readReg_programDividers :
    readReg 0 (programDividers d s) = insertBits 14 3 d.frac (insertBits 30 15 d.n (readReg 0 s)) ∧
      readReg 1 (programDividers d s) = insertBits 14 3 d.modulus (readReg 1 s) ∧
      readReg 4 (programDividers d s) = insertBits 22 20 d.diva (readReg 4 s) := by
  simp [programDividers, readReg_setField_of_eq, readReg_setField_of_ne]

/-- The divider fields of the registers after SETFREQ's field writes: the solution, truncated to the fields (R186, R187). -/
theorem fields_programDividers :
    (readReg 0 (programDividers d s)).extractLsb' 15 16 = BitVec.ofNat 16 d.n ∧
      (readReg 0 (programDividers d s)).extractLsb' 3 12 = BitVec.ofNat 12 d.frac ∧
      (readReg 1 (programDividers d s)).extractLsb' 3 12 = BitVec.ofNat 12 d.modulus ∧
      divaOf (readReg 4 (programDividers d s)) = BitVec.ofNat 3 d.diva := by
  obtain ⟨reg0, reg1, reg4⟩ := readReg_programDividers d s
  rw [reg0, reg1, reg4]
  refine ⟨?_, extractLsb'_insertBits _ _ (by norm_num) (by norm_num), extractLsb'_insertBits _ _ (by norm_num) (by norm_num),
    extractLsb'_insertBits _ _ (by norm_num) (by norm_num)⟩
  rw [extractLsb'_insertBits_of_disjoint _ _ (by norm_num) (by norm_num) (.inr (by norm_num))]
  exact extractLsb'_insertBits _ _ (by norm_num) (by norm_num)

end

/-- Settles O38: in range no field truncates, so the fields spell the solution, whose error is bounded; the write-back clears every
dirty bit. -/
theorem setfreqInRangeMeetsTheTarget : Obligations.SetfreqInRangeMeetsTheTarget := by
  intro targetHz refHz s hmode ht hr inRange
  obtain ⟨-, -, diva_le, n_lt⟩ := inRange
  obtain ⟨-, m_le, frac_le, -, -⟩ := solve_bounds (BitVec.toNat_pos_of_ne_zero ht) (BitVec.toNat_pos_of_ne_zero hr)
  obtain ⟨-, error⟩ := solverErrorIsBounded _ _ (BitVec.toNat_pos_of_ne_zero ht) (BitVec.toNat_pos_of_ne_zero hr)
  refine ⟨_, exec_setfreq_of_ne_zero (by simp [hmode]) ht hr, ?_, ?_⟩
  · obtain ⟨_, flushed⟩ := writeBack_keeps (programDividers (solve targetHz.toNat refHz.toNat) s)
    rw [flushed]
  · obtain ⟨n_field, frac_field, m_field, diva_field⟩ := fields_programDividers (solve targetHz.toNat refHz.toNat) s
    simp only [readReg_writeBack, n_field, frac_field, m_field, diva_field, BitVec.toNat_ofNat]
    rwa [Nat.mod_eq_of_lt n_lt, Nat.mod_eq_of_lt (by omega), Nat.mod_eq_of_lt (by omega), Nat.mod_eq_of_lt (by omega)]

end Sys2Proof.Machine

/-! PROOFS. The family 41_field_access.md: which commands emit events, and what SETF and GETF do on every operand value. -/

namespace Sys2Proof.Machine

/-! ### Events -/

/-- The commands without a write-back emit nothing (R152). -/
theorem exec_events_of_no_writeBack {i : Instr} {s t : State} (h : exec i s = .next t)
    (hi : i.op = .solve ∨ i.op = .proj ∨ i.op = .setf ∨ i.op = .getf ∨ i.op = .lockq) : t.events = s.events := by
  cases exec_cases h with
  | raised | answered | ignored => rfl
  | sampled =>
    obtain ⟨_, _, e⟩ := sampleLD_keeps s
    rw [respond_events, e]
  | fieldSet => exact setField_events ..
  | coldStarted hi' | flushed hi' | selected _ _ hi' | powered _ _ _ hi' | programmed _ _ hi' => simp [hi', Instr.op] at hi

/-- `t` is outside mode COLD, and what it shows after the events of `s` is no delay. -/
def WarmWithoutDelay (s t : State) : Prop :=
  t.mode ≠ .cold ∧ ∃ es, t.events = s.events ++ es ∧ ∀ ms : Nat, Event.delay ms ∉ es

/-- A field write emits nothing, and a write-back outside COLD emits register words alone (R158). -/
theorem warmWithoutDelay_keptByCommands (s : State) : KeptByCommands (WarmWithoutDelay s) where
  ports _ _ _ _ _ _ hu := hu
  field _ _ _ _ _ _ hu := by simpa [WarmWithoutDelay] using hu
  flushed u _ hu := by
    obtain ⟨warm, es, shown, noDelay⟩ := hu
    rw [writeBack_eq_afterFlush warm]
    refine ⟨warm, es ++ (sentByFlush u).map fun i => .write (readReg i u), ?_, fun ms => ?_⟩
    · rw [afterFlush, shown, List.append_assoc]
    · simpa using noDelay ms

/-- Settles O22: a command emits by its write-back alone, and a delay comes from the cold-start pass alone. -/
theorem onlyWriteBacksEmitEvents : Obligations.OnlyWriteBacksEmitEvents := by
  intro i s t es h hevents
  refine ⟨fun hi => ?_, fun warm hreset ms => ?_⟩
  · rw [exec_events_of_no_writeBack h hi] at hevents
    exact List.self_eq_append_right.mp hevents
  · obtain ⟨-, es', shown, noDelay⟩ :=
      (warmWithoutDelay_keptByCommands s).of_exec (absurd · hreset) h ⟨warm, [], by simp, by simp⟩
    rw [List.append_cancel_left (hevents.symm.trans shown)]
    exact noDelay ms

/-! ### Fields -/

section
variable {r : Fin 7} {reg hi lo : Nat}

/-- A field write on the register it names, in terms of that register (R130). -/
theorem setField_eq_withReg (hr : r.val = reg) (hl : 3 ≤ min hi lo) (hh : max hi lo ≤ 31) (value : Nat) (s : State) :
    setField reg hi lo value s = withReg r (insertBits (max hi lo) (min hi lo) value (readReg r s)) s := by
  subst hr
  rw [setField_accepts value s (by omega) hl hh, Fin.ofNat_val_eq_self]

/-- The word a field read answers, in terms of the register it names (R135). -/
theorem getField_eq_extractBits (hr : r.val = reg) (hl : 3 ≤ min hi lo) (hh : max hi lo ≤ 31) (s : State) :
    getField reg hi lo s = extractBits (max hi lo) (min hi lo) (readReg r s) := by
  subst hr
  rw [getField_accepts s (by omega) hl hh, Fin.ofNat_val_eq_self]

end

/-- A field write sets the dirty bits of the words it changes and keeps the others (R134). -/
theorem isDirty_setField (reg hi lo value : Nat) (j : Fin 7) (s : State) :
    isDirty j (setField reg hi lo value s) = (isDirty j s || readReg j (setField reg hi lo value s) != readReg j s) := by
  obtain e | ⟨r, _, _, -, -, -, e⟩ := setField_cases reg hi lo value s
  · simp [e]
  · rw [e, isDirty_withReg, readReg_withReg]
    by_cases hj : j = r
    · simp [hj]
    · simp [hj]

/-- A field write that leaves the words leaves the whole state (R134). -/
theorem setField_eq_self_of_regs {reg hi lo value : Nat} {s : State} (h : (setField reg hi lo value s).regs = s.regs) :
    setField reg hi lo value s = s := by
  obtain e | ⟨r, a, b, -, -, -, e⟩ := setField_cases reg hi lo value s
  · exact e
  · have same : readReg r (setField reg hi lo value s) = readReg r s := by rw [readReg, h, readReg]
    rw [e, readReg_withReg, if_pos rfl] at same
    rw [e, withReg_of_eq same]

theorem insertBits_insertBits {hi lo : Nat} (value : Nat) (old : Word) (hlh : lo ≤ hi) :
    insertBits hi lo value (insertBits hi lo value old) = insertBits hi lo value old := by
  refine BitVec.eq_of_getLsbD_eq fun j hj => ?_
  rw [insertBits_getLsbD value _ hlh hj, insertBits_getLsbD value old hlh hj]
  split <;> rfl

/-- The second of two equal field writes changes nothing (R134). -/
theorem setField_setField (reg hi lo value : Nat) (s : State) :
    setField reg hi lo value (setField reg hi lo value s) = setField reg hi lo value s := by
  by_cases hrej : min hi lo < 3 ∨ max hi lo > 31 ∨ reg > 6
  · exact setField_rejects value _ hrej
  · have write := setField_eq_withReg (r := ⟨reg, by omega⟩) (hi := hi) (lo := lo) rfl (by omega) (by omega) value
    rw [write (setField reg hi lo value s)]
    refine withReg_of_eq ?_
    rw [write s, readReg_withReg, if_pos rfl, insertBits_insertBits value _ min_le_max]

/-- A field just written is read as the value, truncated to its width (R136). -/
theorem extractBits_insertBits {hi lo : Nat} (value : Nat) (old : Word) (hlh : lo ≤ hi) (hh : hi < 32) :
    extractBits hi lo (insertBits hi lo value old) = BitVec.ofNat 32 (value % 2 ^ (hi - lo + 1)) := by
  rw [extractBits, BitVec.extractLsb, extractLsb'_insertBits value old hlh hh]
  refine BitVec.eq_of_toNat_eq ?_
  simp

/-! ### SETF and GETF -/

section
variable {reg hi lo : BitVec 8} {value : Word} {s t : State}

theorem exec_setf_of_uninit (m : s.mode = .uninit) :
    exec (.setf reg hi lo value) s = raise .uninit (Instr.setf reg hi lo value).header s :=
  unlessUninit_of_uninit m _ _

theorem exec_setf_of_ne (m : s.mode ≠ .uninit) :
    exec (.setf reg hi lo value) s = .next (setField reg.toNat hi.toNat lo.toNat value.toNat s) :=
  unlessUninit_of_ne m _ _

theorem exec_getf_of_uninit (m : s.mode = .uninit) :
    exec (.getf reg hi lo) s = raise .uninit (Instr.getf reg hi lo).header s :=
  unlessUninit_of_uninit m _ _

theorem exec_getf_of_ne (m : s.mode ≠ .uninit) :
    exec (.getf reg hi lo) s = .next (respond [getField reg.toNat hi.toNat lo.toNat s] s) :=
  unlessUninit_of_ne m _ _

theorem eq_setField_of_exec_setf (m : s.mode ≠ .uninit) (h : exec (.setf reg hi lo value) s = .next t) :
    t = setField reg.toNat hi.toNat lo.toNat value.toNat s :=
  Host.Outcome.next.inj (h.symm.trans (exec_setf_of_ne m))

end

/-- Settles O24: SETF is a field write, which updates the register it names by the inserted word. -/
theorem setfWritesExactlyItsField : Obligations.SetfWritesExactlyItsField := by
  intro reg hi lo value s
  refine ⟨exec_setf_of_uninit, fun m => ⟨_, exec_setf_of_ne m, setField_rejects _ _, fun r hr hl hh => ?_⟩⟩
  have others : ∀ j, j ≠ r → readReg j (setField reg.toNat hi.toNat lo.toNat value.toNat s) = readReg j s :=
    fun j hj => readReg_setField_of_ne (fun e => hj (Fin.ext (e.trans hr.symm))) _ _ _ s
  refine ⟨?_, others, fun j => ?_, setField_frame _ _ _ _ s⟩
  · rw [setField_eq_withReg hr hl hh, readReg_withReg, if_pos rfl]
    exact insertBits_fieldReplaced _ _ min_le_max
  · rw [isDirty_setField]
    by_cases hj : j = r
    · simp [hj]
    · simp [hj, others j hj]

/-- Settles O25: a field write puts its bounds in order first. -/
theorem setfIgnoresTheOrderOfItsBounds : Obligations.SetfIgnoresTheOrderOfItsBounds :=
  fun _ _ _ _ _ m => ⟨_, exec_setf_of_ne m, by rw [exec_setf_of_ne m, setField_comm]⟩

/-- Settles O26: inserting the same value again leaves the word, and the dirty bits follow the words that change. -/
theorem setfIsIdempotentAndNeverCleans : Obligations.SetfIsIdempotentAndNeverCleans := by
  intro reg hi lo value s t m h
  obtain rfl := eq_setField_of_exec_setf m h
  refine ⟨?_, setField_eq_self_of_regs, fun j hj => ?_, fun j hj => ?_⟩
  · rw [exec_setf_of_ne (by rwa [setField_mode]), setField_setField]
  · simpa [isDirty_setField] using hj
  · rw [isDirty_setField, hj, Bool.true_or]

/-- Settles O27: GETF answers the field read, which is 0 where it is rejected. -/
theorem getfAnswersTheField : Obligations.GetfAnswersTheField := by
  intro reg hi lo s
  refine ⟨exec_getf_of_uninit, fun m => ⟨_, exec_getf_of_ne m, getField_rejects s, fun r hr hl hh j hj => ?_⟩⟩
  rw [getField_eq_extractBits hr hl hh, extractBits_getLsbD _ hj]

/-- Settles O28: SETF leaves the mode and the inserted word, from which GETF reads the value back. -/
theorem getfAfterSetfReturnsTheValue : Obligations.GetfAfterSetfReturnsTheValue := by
  intro reg hi lo value s t m hl hlh hh hreg h
  obtain rfl := eq_setField_of_exec_setf m h
  rw [exec_getf_of_ne (by rwa [setField_mode]), getField_eq_extractBits (r := ⟨reg.toNat, by omega⟩) rfl (by omega) (by omega),
    readReg_setField_of_eq rfl hl hlh hh, max_eq_left hlh, min_eq_right hlh, extractBits_insertBits _ _ hlh (by omega)]
  rfl

end Sys2Proof.Machine

/-! PROOFS. The family 42_writeback.md: what RESET and FLUSH send and leave, and what stands inside a steady pass. -/

namespace Sys2Proof.Machine

/-! ### The registers a flush sends -/

/-- Coupling bears on register 0 alone, which comes last: the other registers are sent if they are dirty (R157, R158). -/
theorem sentByFlush_eq_append (s : State) :
    sentByFlush s = ([6, 5, 4, 3, 2, 1] : List (Fin 7)).filter (isDirty · s) ++
      if isDirty 0 s || forcesReg0 s then [0] else [] := by
  have init : ([6, 5, 4, 3, 2, 1] : List (Fin 7)).filter (fun i => isDirty i s || (i == 0 && forcesReg0 s)) =
      ([6, 5, 4, 3, 2, 1] : List (Fin 7)).filter (isDirty · s) :=
    List.filter_congr fun i hi => by simp [show i ≠ 0 by rintro rfl; revert hi; decide]
  rw [sentByFlush, ← forcesReg0_eq, show ([6, 5, 4, 3, 2, 1, 0] : List (Fin 7)) = [6, 5, 4, 3, 2, 1] ++ [0] from rfl,
    List.filter_append, init]
  simp [List.filter_cons]

theorem zero_mem_sentByFlush (s : State) : 0 ∈ sentByFlush s ↔ isDirty 0 s = true ∨ forcesReg0 s = true := by
  rw [sentByFlush_eq_append]
  simp

theorem sentByFlush_of_all_dirty {s : State} (h : ∀ j, isDirty j s = true) : sentByFlush s = [6, 5, 4, 3, 2, 1, 0] := by
  simp [sentByFlush_eq_append, h]

theorem forcesReg0_of_clean {s : State} (h1 : isDirty 1 s = false) (h4 : isDirty 4 s = false) : forcesReg0 s = false := by
  simp [forcesReg0_eq, h1, h4]

theorem isDirty_of_dirty_zero {s : State} (h : s.dirty = 0) (j : Fin 7) : isDirty j s = false := by
  simp [isDirty, h]

/-- A flush with no dirty register is over at once (R159). -/
theorem afterFlush_of_dirty_zero {s : State} (h : s.dirty = 0) : afterFlush s = { s with seq := .idle } := by
  have clean := isDirty_of_dirty_zero h
  have unsent : sentByFlush s = [] := by simp [sentByFlush_eq_append, forcesReg0_of_clean (clean 1) (clean 4), clean]
  simp [afterFlush, unsent, clean 4, h]

/-! ### FLUSH and RESET -/

/-- Settles O30: outside COLD a write-back is the coupling step and the steady pass. -/
theorem flushSendsTheDirtyRegisters : Obligations.FlushSendsTheDirtyRegisters := by
  intro s m
  rw [← writeBack_eq_afterFlush (by simp [m])]
  exact unlessUninit_of_ne (by simp [m]) _ _

/-- Settles O31: nothing dirty leaves nothing to couple or to send, and only registers 1 and 4 couple register 0. -/
theorem cleanFlushSendsNothing : Obligations.CleanFlushSendsNothing := by
  refine ⟨fun s m h => ?_, fun s m h0 h1 h4 => ?_⟩
  · rw [flushSendsTheDirtyRegisters s m, afterFlush_of_dirty_zero h]
  · refine ⟨_, sentByFlush s, flushSendsTheDirtyRegisters s m, rfl, ?_⟩
    simp [zero_mem_sentByFlush, h0, forcesReg0_of_clean h1 h4]

/-- `s` under a coupling policy (00_scope.md R7). -/
def withCoupling (c : Coupling) (s : State) : State := { s with cfg := { s.cfg with coupling := c } }

section
variable (c : Coupling) (j : Fin 7) (s : State)

@[simp] theorem withCoupling_coupling : (withCoupling c s).cfg.coupling = c := rfl
@[simp] theorem withCoupling_lastDiva : (withCoupling c s).lastDiva = s.lastDiva := rfl
@[simp] theorem withCoupling_events : (withCoupling c s).events = s.events := rfl
@[simp] theorem isDirty_withCoupling : isDirty j (withCoupling c s) = isDirty j s := rfl
@[simp] theorem readReg_withCoupling : readReg j (withCoupling c s) = readReg j s := rfl

end

/-- The policies differ in whether a dirty register 4 whose DIVA is as last sent forces register 0 (R161). -/
theorem forcesReg0_withCoupling {s : State} (c : Coupling) (h4 : isDirty 4 s = true) (h1 : isDirty 1 s = false)
    (hdiva : divaOf (readReg 4 s) = s.lastDiva) : forcesReg0 (withCoupling c s) = (c == .unconditional) := by
  rw [forcesReg0_eq]
  simp [h1, h4, hdiva]

/-- Settles O32: with register 0 clean it is sent just where it is forced, after the other dirty registers. -/
theorem couplingPoliciesDifferByRegister0 : Obligations.CouplingPoliciesDifferByRegister0 := by
  intro s m h4 h0 h1 hdiva
  have sent (c : Coupling) : sentByFlush (withCoupling c s) =
      ([6, 5, 4, 3, 2, 1] : List (Fin 7)).filter (isDirty · s) ++ if c = .unconditional then [0] else [] := by
    simp [sentByFlush_eq_append, forcesReg0_withCoupling c h4 h1 hdiva, h0]
  refine ⟨_, _, ([6, 5, 4, 3, 2, 1] : List (Fin 7)).filter (isDirty · s),
    flushSendsTheDirtyRegisters (withCoupling .divaChange s) m,
    flushSendsTheDirtyRegisters (withCoupling .unconditional s) m, ?_, by simp, by simp [h4], ?_⟩
  · simp [afterFlush, sent]
  · simp [afterFlush, sent]

/-- Settles O29: RESET makes every register dirty with its default word, and its write-back is both passes. -/
theorem resetRunsTheColdStart : Obligations.ResetRunsTheColdStart := by
  intro s
  have all : ∀ j, isDirty j (coldPass (loadDefaults s)) = true := (coldPass_ready (loadDefaults_tagsHeld s)).2
  have words : ∀ j, readReg j (coldPass (loadDefaults s)) = s.cfg.imageWord j := fun j => by
    rw [coldPass_eq]; exact readReg_loadDefaults j s
  have masked : maskedReg4 (loadDefaults s) = s.cfg.imageWord 4 &&& 0xFFFFFEDF := by
    rw [maskedReg4, readReg_loadDefaults]; rfl
  rw [show exec .reset s = .next (writeBack (loadDefaults s)) from rfl, writeBack_cold rfl]
  simp only [afterFlush, sentByFlush_of_all_dirty all, all, words]
  simp [coldPass_eq, masked]

/-! ### Inside a steady pass -/

theorem PhasesFrom.take {p q : SeqPhase} {ps : List SeqPhase} (h : PhasesFrom p ps q) (k : Nat) :
    ∃ q', PhasesFrom p (ps.take k) q' := by
  induction ps generalizing p k with
  | nil => exact ⟨q, by simpa using h⟩
  | cons p' ps ih =>
    cases k with
    | zero => exact ⟨p, rfl⟩
    | succ k =>
      obtain ⟨hp, hne, hrest⟩ := h
      obtain ⟨q', hq'⟩ := ih hrest k
      exact ⟨q', hp, hne, hq'⟩

/-- The first phases of a steady pass are the turns of the first registers, from 6 down (R158, R162). -/
theorem sequencerStep_iterate_steady {k : Nat} (hk : k ≤ 7) (s : State) :
    ∃ q, sequencerStep^[k] { s with seq := .wb 6 } =
      { ((([6, 5, 4, 3, 2, 1, 0] : List (Fin 7)).take k).map SeqPhase.wb).foldl runPhase s with seq := q } := by
  have whole : PhasesFrom (.wb 6) steadyPhases .idle := by simp [steadyPhases, PhasesFrom, followingPhase]
  obtain ⟨q, hq⟩ := whole.take k
  refine ⟨q, ?_⟩
  have run := sequencerStep_iterate hq s
  rw [List.length_take_of_le hk] at run
  rw [run, List.map_take]
  rfl

/-- Settles O34: `k` phases are the turns of the first `k` registers from 6 down, and a turn clears its own dirty bit alone. -/
theorem dirtyBitsInsideASteadyPass : Obligations.DirtyBitsInsideASteadyPass := by
  intro s k warm hk
  have visited : ∀ k ≤ 7, ∀ j : Fin 7, (!decide (j ∈ [6, 5, 4, 3, 2, 1, 0].take k)) = decide (j.val + k < 7) := by decide
  have distinct : (([6, 5, 4, 3, 2, 1, 0] : List (Fin 7)).take k).Nodup :=
    (by decide : List.Nodup _).sublist (List.take_sublist k _)
  obtain ⟨q, inside⟩ := sequencerStep_iterate_steady hk (couple s)
  rw [beginWriteBack, if_neg warm, inside, turns_eq _ distinct]
  refine ⟨fun j => ?_, ?_⟩
  · rw [← visited k hk j]
    exact clearAll_getLsbD _ _ j
  · rw [couple_frame]
    exact ⟨rfl, rfl, rfl⟩

end Sys2Proof.Machine

/-! PROOFS. The family 43_output_and_status.md: the words that OUTSEL, OUTPWR and SETFREQ write, and the write-back after them. -/

namespace Sys2Proof.Machine

/-! ### Words with one field or two replaced -/

section
variable {hi lo hi' lo' : Nat} (value value' : Nat) (old : Word)

/-- A value truncated to a field and put at its place, bit by bit. -/
theorem shiftLeft_mod_getLsbD {j : Nat} (hlh : lo ≤ hi) (hj : j < 32) :
    (BitVec.ofNat 32 (value % 2 ^ (hi - lo + 1)) <<< lo).getLsbD j =
      if lo ≤ j ∧ j ≤ hi then value.testBit (j - lo) else false := by
  rw [BitVec.getLsbD_shiftLeft, BitVec.getLsbD_ofNat, Nat.testBit_mod_two_pow]
  by_cases hl : lo ≤ j
  · have width : j - lo < hi - lo + 1 ↔ j ≤ hi := by omega
    have fits : j - lo < 32 := by omega
    by_cases hh : j ≤ hi <;> simp [hj, hl, hh, width, fits]
  · simp [hl, show j < lo by omega]

/-- A written word as the kept bits and the value, truncated to its field (R133, R187). -/
theorem insertBits_eq_or (hlh : lo ≤ hi) :
    insertBits hi lo value old = (old &&& ~~~(mask hi lo)) ||| (BitVec.ofNat 32 (value % 2 ^ (hi - lo + 1)) <<< lo) := by
  refine BitVec.eq_of_getLsbD_eq fun j hj => ?_
  rw [insertBits_getLsbD value old hlh hj, BitVec.getLsbD_or, BitVec.getLsbD_and, BitVec.getLsbD_not, mask_getLsbD hlh hj,
    shiftLeft_mod_getLsbD value hlh hj, ← Bool.decide_and]
  by_cases hfield : lo ≤ j ∧ j ≤ hi
  · simp [hfield]
  · simp only [hfield, hj, if_false, decide_true, decide_false, Bool.not_false, Bool.and_true, Bool.or_false]

/-- Two fields apart, written into one word: each keeps the other's bits (R133). -/
theorem insertBits_insertBits_of_disjoint (hlh : lo ≤ hi) (hlh' : lo' ≤ hi') (apart : hi' < lo ∨ hi < lo') :
    insertBits hi lo value (insertBits hi' lo' value' old) =
      (old &&& (~~~(mask hi' lo') &&& ~~~(mask hi lo))) ||| (BitVec.ofNat 32 (value' % 2 ^ (hi' - lo' + 1)) <<< lo') |||
        (BitVec.ofNat 32 (value % 2 ^ (hi - lo + 1)) <<< lo) := by
  have outside : (BitVec.ofNat 32 (value' % 2 ^ (hi' - lo' + 1)) <<< lo') &&& ~~~(mask hi lo) =
      BitVec.ofNat 32 (value' % 2 ^ (hi' - lo' + 1)) <<< lo' := by
    refine BitVec.eq_of_getLsbD_eq fun j hj => ?_
    rw [BitVec.getLsbD_and, BitVec.getLsbD_not, mask_getLsbD hlh hj, shiftLeft_mod_getLsbD value' hlh' hj, ← Bool.decide_and]
    by_cases hfield : lo' ≤ j ∧ j ≤ hi'
    · simp only [show ¬ (lo ≤ j ∧ j ≤ hi) by omega, hj, decide_false, decide_true, Bool.not_false, Bool.and_true]
    · simp only [if_neg hfield, Bool.false_and]
  rw [insertBits_eq_or value _ hlh, insertBits_eq_or value' old hlh', BitVec.and_or_distrib_right, outside, BitVec.and_assoc]

/-- A second field write cannot undo one apart from it (R133). -/
theorem eq_of_insertBits_insertBits_eq (hlh : lo ≤ hi) (hlh' : lo' ≤ hi') (apart : hi' < lo ∨ hi < lo')
    (h : insertBits hi lo value (insertBits hi' lo' value' old) = old) : insertBits hi' lo' value' old = old := by
  refine BitVec.eq_of_getLsbD_eq fun j hj => ?_
  by_cases hfield : lo' ≤ j ∧ j ≤ hi'
  · have kept := insertBits_getLsbD value (insertBits hi' lo' value' old) hlh hj
    rw [if_neg (by omega), h] at kept
    exact kept.symm
  · rw [insertBits_getLsbD value' old hlh' hj, if_neg hfield]

end

section
variable {r : Fin 7} {reg hi lo hi' lo' : Nat} (value value' : Nat) (s : State)

/-- A field write with its bounds in order, as an update of the register it names (R130, R187). -/
theorem setField_eq_withReg_or (hr : r.val = reg) (field : 3 ≤ lo ∧ lo ≤ hi ∧ hi ≤ 31) :
    setField reg hi lo value s =
      withReg r ((readReg r s &&& ~~~(mask hi lo)) ||| (BitVec.ofNat 32 (value % 2 ^ (hi - lo + 1)) <<< lo)) s := by
  obtain ⟨hl, hlh, hh⟩ := field
  rw [setField_eq_withReg hr (by omega) (by omega), max_eq_left hlh, min_eq_right hlh, insertBits_eq_or _ _ hlh]

/-- Two field writes apart in one register are one update of it, its dirty bit included (R134, R187). -/
theorem setField_setField_eq_withReg_or (hr : r.val = reg) (field : 3 ≤ lo ∧ lo ≤ hi ∧ hi ≤ 31)
    (field' : 3 ≤ lo' ∧ lo' ≤ hi' ∧ hi' ≤ 31) (apart : hi' < lo ∨ hi < lo') :
    setField reg hi lo value (setField reg hi' lo' value' s) =
      withReg r ((readReg r s &&& (~~~(mask hi' lo') &&& ~~~(mask hi lo))) |||
        (BitVec.ofNat 32 (value' % 2 ^ (hi' - lo' + 1)) <<< lo') |||
        (BitVec.ofNat 32 (value % 2 ^ (hi - lo + 1)) <<< lo)) s := by
  obtain ⟨hl, hlh, hh⟩ := field
  obtain ⟨hl', hlh', hh'⟩ := field'
  rw [setField_eq_withReg hr (s := s) (by omega) (by omega), setField_eq_withReg hr (by omega) (by omega), max_eq_left hlh,
    min_eq_right hlh, max_eq_left hlh', min_eq_right hlh', readReg_withReg, if_pos rfl,
    withReg_withReg_same (eq_of_insertBits_insertBits_eq value value' _ hlh hlh' apart),
    insertBits_insertBits_of_disjoint value value' _ hlh hlh' apart]

end

/-- A bit vector put in a field of its own width is not truncated. -/
theorem ofNat_toNat_mod {n : Nat} (v : BitVec n) : BitVec.ofNat 32 (v.toNat % 2 ^ n) = v.setWidth 32 := by
  rw [BitVec.toNat_mod_cancel, BitVec.ofNat_toNat]

/-! ### OUTSEL -/

section
variable {s : State}

theorem exec_outsel_of_uninit {ena enb : BitVec 1} (m : s.mode = .uninit) :
    exec (.outsel ena enb) s = raise .uninit (Instr.outsel ena enb).header s :=
  unlessUninit_of_uninit m _ _

/-- OUTSEL in mode STEADY is its field writes and a flush (R181). -/
theorem exec_outsel_of_steady {ena enb : BitVec 1} (m : s.mode = .steady) :
    exec (.outsel ena enb) s = .next (afterFlush (selectOutputs ena enb s)) := by
  rw [← writeBack_eq_afterFlush (by simp [selectOutputs, m])]
  exact unlessUninit_of_ne (by simp [m]) _ _

end

/-- OUTSEL's field writes are one update of register 4 (R180). -/
theorem selectOutputs_eq_withReg (ena enb : BitVec 1) (s : State) :
    selectOutputs ena enb s =
      withReg 4 ((readReg 4 s &&& 0xFFFFFEDF) ||| (ena.setWidth 32 <<< 5) ||| (enb.setWidth 32 <<< 8)) s := by
  rw [selectOutputs, setField_setField_eq_withReg_or (r := 4) (reg := 4) _ _ _ rfl (by decide) (by decide) (by decide),
    ← ofNat_toNat_mod ena, ← ofNat_toNat_mod enb]
  rfl

/-- Settles O35: OUTSEL's two field writes are one update of register 4, which the write-back follows. -/
theorem outselSetsTheEnablesAndFlushes : Obligations.OutselSetsTheEnablesAndFlushes := by
  intro ena enb s
  refine ⟨exec_outsel_of_uninit, fun m => ?_⟩
  rw [exec_outsel_of_steady m, selectOutputs_eq_withReg]

/-! ### OUTPWR -/

/-- The power table (R182). -/
theorem powerCode_eq_some {level : Int} {code : BitVec 2}
    (h : (level = -4 ∧ code = 0b00) ∨ (level = -1 ∧ code = 0b01) ∨ (level = 2 ∧ code = 0b10) ∨ (level = 5 ∧ code = 0b11)) :
    powerCode level = some code.toNat := by
  obtain ⟨rfl, rfl⟩ | ⟨rfl, rfl⟩ | ⟨rfl, rfl⟩ | ⟨rfl, rfl⟩ := h <;> rfl

theorem powerCode_eq_none {level : Int} (h : level ≠ -4 ∧ level ≠ -1 ∧ level ≠ 2 ∧ level ≠ 5) : powerCode level = none := by
  simp [powerCode, h]

section
variable {level : BitVec 8} {port : BitVec 2} {s : State}

theorem exec_outpwr_of_uninit (m : s.mode = .uninit) :
    exec (.outpwr level port) s = raise .uninit (Instr.outpwr level port).header s :=
  unlessUninit_of_uninit m _ _

/-- Outside UNINIT OUTPWR does nothing without a code or a port (R184). -/
theorem exec_outpwr_ignored (m : s.mode ≠ .uninit) (h : powerCode level.toInt = none ∨ port = 3) :
    exec (.outpwr level port) s = .next s := by
  refine (unlessUninit_of_ne m _ _).trans ?_
  cases hcode : powerCode level.toInt with
  | none => rfl
  | some code => exact if_pos (h.resolve_left (by simp [hcode]))

/-- OUTPWR with a code and a port in mode STEADY is its field writes and a flush (R183). -/
theorem exec_outpwr_of_steady {code : Nat} (m : s.mode = .steady) (hcode : powerCode level.toInt = some code)
    (hport : port ≠ 3) :
    exec (.outpwr level port) s = .next (afterFlush (setPowerFields code port s)) := by
  obtain ⟨_, _, shadow⟩ := setPowerFields_keeps code port s
  rw [← writeBack_eq_afterFlush (by rw [shadow]; simp [m])]
  refine (unlessUninit_of_ne (by simp [m]) _ _).trans ?_
  rw [hcode]
  exact if_neg hport

end

section
variable (code : BitVec 2) (s : State)

theorem setPowerFields_portA :
    setPowerFields code.toNat 0 s = withReg 4 ((readReg 4 s &&& 0xFFFFFFE7) ||| (code.setWidth 32 <<< 3)) s := by
  rw [show setPowerFields code.toNat 0 s = setField 4 4 3 code.toNat s from rfl,
    setField_eq_withReg_or (r := 4) (reg := 4) _ _ rfl (by decide), ← ofNat_toNat_mod code]
  rfl

theorem setPowerFields_portB :
    setPowerFields code.toNat 1 s = withReg 4 ((readReg 4 s &&& 0xFFFFFF3F) ||| (code.setWidth 32 <<< 6)) s := by
  rw [show setPowerFields code.toNat 1 s = setField 4 7 6 code.toNat s from rfl,
    setField_eq_withReg_or (r := 4) (reg := 4) _ _ rfl (by decide), ← ofNat_toNat_mod code]
  rfl

theorem setPowerFields_bothPorts :
    setPowerFields code.toNat 2 s =
      withReg 4 ((readReg 4 s &&& 0xFFFFFF27) ||| (code.setWidth 32 <<< 3) ||| (code.setWidth 32 <<< 6)) s := by
  rw [show setPowerFields code.toNat 2 s = setField 4 7 6 code.toNat (setField 4 4 3 code.toNat s) from rfl,
    setField_setField_eq_withReg_or (r := 4) (reg := 4) _ _ _ rfl (by decide) (by decide) (by decide), ← ofNat_toNat_mod code]
  rfl

end

/-- Settles O36: the power table gives OUTPWR its code or none, and its field writes are one update of register 4. -/
theorem outpwrSetsTheLevelAndFlushes : Obligations.OutpwrSetsTheLevelAndFlushes := by
  intro level port s
  refine ⟨exec_outpwr_of_uninit, fun m h => exec_outpwr_ignored m (h.imp_left powerCode_eq_none), fun code m h => ?_⟩
  have hcode := powerCode_eq_some h
  refine ⟨?_, ?_, ?_⟩ <;> rintro rfl
  · rw [exec_outpwr_of_steady m hcode (by decide), setPowerFields_portA]
  · rw [exec_outpwr_of_steady m hcode (by decide), setPowerFields_portB]
  · rw [exec_outpwr_of_steady m hcode (by decide), setPowerFields_bothPorts]

/-! ### The registers SETFREQ writes -/

theorem exec_setfreq_of_uninit {targetHz refHz : BitVec 64} {s : State} (m : s.mode = .uninit) :
    exec (.setfreq targetHz refHz) s = raise .uninit 0x00000012 s :=
  unlessUninit_of_uninit m _ _

/-- SETFREQ on operands it can solve, in mode STEADY, is its field writes and a flush (R186). -/
theorem exec_setfreq_of_steady {targetHz refHz : BitVec 64} {s : State} (m : s.mode = .steady) (ht : targetHz ≠ 0)
    (hr : refHz ≠ 0) :
    exec (.setfreq targetHz refHz) s = .next (afterFlush (programDividers (solve targetHz.toNat refHz.toNat) s)) := by
  rw [exec_setfreq_of_ne_zero (by simp [m]) ht hr, writeBack_eq_afterFlush (by simp [programDividers, m])]

/-- SETFREQ's field writes are one update of each of registers 0, 1 and 4, and Frac and M are not truncated (R186, R187). -/
theorem programDividers_eq_withReg {d : DividerState} (s : State) (hfrac : d.frac < 2 ^ 12) (hmodulus : d.modulus < 2 ^ 12) :
    programDividers d s =
      withReg 4 ((readReg 4 s &&& 0xFF8FFFFF) ||| (BitVec.ofNat 32 (d.diva % 2 ^ 3) <<< 20))
      (withReg 1 ((readReg 1 s &&& 0xFFFF8007) ||| (BitVec.ofNat 32 d.modulus <<< 3))
      (withReg 0 ((readReg 0 s &&& 0x80000007) ||| (BitVec.ofNat 32 (d.n % 2 ^ 16) <<< 15) |||
        (BitVec.ofNat 32 d.frac <<< 3)) s)) := by
  rw [programDividers, setField_setField_eq_withReg_or (r := 0) (reg := 0) _ _ _ rfl (by decide) (by decide) (by decide),
    setField_eq_withReg_or (r := 1) (reg := 1) _ _ rfl (by decide),
    setField_eq_withReg_or (r := 4) (reg := 4) _ _ rfl (by decide)]
  simp only [readReg_withReg, Nat.mod_eq_of_lt hfrac, Nat.mod_eq_of_lt hmodulus, Nat.reduceSub, Nat.reduceAdd]
  rfl

/-- Settles O37: a solution's Frac and M fit their fields, and SETFREQ's field writes are an update of each register. -/
theorem setfreqProgramsTheSolvedDividers : Obligations.SetfreqProgramsTheSolvedDividers := by
  intro targetHz refHz s
  refine ⟨exec_setfreq_of_uninit, exec_setfreq_of_zero, fun m ht hr => ?_⟩
  obtain ⟨-, m_le, frac_le, -, -⟩ := solve_bounds (BitVec.toNat_pos_of_ne_zero ht) (BitVec.toNat_pos_of_ne_zero hr)
  rw [exec_setfreq_of_steady m ht hr, programDividers_eq_withReg s (by omega) (by omega)]

end Sys2Proof.Machine

/-! PROOFS. The family 60_exceptions.md: which fault a command raises, and that a fault is precise. -/

namespace Sys2Proof.Machine

/-! ### A command raises the fault the table gives -/

/-- R204: every controller command but RESET checks the mode first. -/
theorem exec_of_uninit {i : Instr} {s : State} (m : s.mode = .uninit)
    (hi : i.op = .setf ∨ i.op = .getf ∨ i.op = .flush ∨ i.op = .outsel ∨ i.op = .outpwr ∨ i.op = .setfreq) :
    exec i s = raise .uninit i.header s := by
  cases i with
  | solve | proj | reset | lockq => simp [Instr.op] at hi
  | setf => exact exec_setf_of_uninit m
  | getf => exact exec_getf_of_uninit m
  | flush => exact unlessUninit_of_uninit m _ _
  | outsel => exact exec_outsel_of_uninit m
  | outpwr => exact exec_outpwr_of_uninit m
  | setfreq => exact exec_setfreq_of_uninit m

/-- A command with a cause for a fault raises it and does nothing else (R200, R201, R207). -/
theorem exec_of_raises {i : Instr} {s : State} {c : FaultCode} (h : Raises i s c) : exec i s = raise c i.header s := by
  obtain ⟨rfl, m, hi⟩ | ⟨rfl, targetHz, refHz, h0, rfl | ⟨rfl, m⟩⟩ | ⟨rfl, n, frac, modulus, diva, refHz, rfl, h0⟩ := h
  · exact exec_of_uninit m hi
  · exact exec_solve_of_zero h0
  · exact exec_setfreq_of_zero m h0
  · exact exec_proj_of_zero h0

/-- Settles O14: the check of the mode comes before anything else of the six. -/
theorem controllerCommandsFaultBeforeReset : Obligations.ControllerCommandsFaultBeforeReset :=
  fun _ _ m hi => exec_of_uninit m hi

/-! ### Nothing else touches the fault record -/

@[simp] theorem setField_fault (reg hi lo value : Nat) (s : State) : (setField reg hi lo value s).fault = s.fault := by
  rw [setField_frame]

@[simp] theorem sampleLD_fault (s : State) : (sampleLD s).2.fault = s.fault := by
  obtain ⟨_, _, h⟩ := sampleLD_keeps s
  rw [h]

/-- Field writes and the write-back after them leave the fault record. -/
theorem OnlyShadow.fault_writeBack {s u : State} (h : OnlyShadow s u) : (writeBack u).fault = s.fault := by
  obtain ⟨rs, d, rfl⟩ := h
  obtain ⟨es, e⟩ := writeBack_keeps { s with regs := rs, dirty := d }
  rw [e]

/-- A command leaves the fault record, or raises a fault it has a cause for, before it has done anything (R208). -/
theorem exec_fault {i : Instr} {s t : State} (h : exec i s = .next t) :
    t.fault = s.fault ∨ ∃ c, Raises i s c ∧ t = { s with fault := some { code := c, header := i.header } } := by
  cases exec_cases h with
  | raised c cause => exact .inr ⟨c, cause, rfl⟩
  | answered | ignored => exact .inl rfl
  | sampled | fieldSet => exact .inl (by simp)
  | coldStarted => exact .inl (OnlyShadow.refl (loadDefaults s)).fault_writeBack
  | flushed => exact .inl (OnlyShadow.refl s).fault_writeBack
  | selected => exact .inl (selectOutputs_keeps ..).fault_writeBack
  | powered => exact .inl (setPowerFields_keeps ..).fault_writeBack
  | programmed => exact .inl (programDividers_keeps ..).fault_writeBack

/-- Settles O16: a record that was not there before is of a fault the command had a cause for, and nothing else changed. -/
theorem commandFaultsArePrecise : Obligations.CommandFaultsArePrecise := by
  intro i s t r hs h ht
  obtain kept | ⟨c, cause, rfl⟩ := exec_fault h
  · simp [kept, hs] at ht
  · cases ht
    exact ⟨rfl, rfl, cause⟩

/-! ### The fault table -/

/-- The table gives the fault the command has a cause for (R201). -/
theorem faultOf_of_raises {i : Instr} {s : State} {c : FaultCode} (h : Raises i s c) :
    faultOf i s.mode = some (faultNumber c, i.header) := by
  obtain ⟨rfl, m, hi⟩ | ⟨rfl, targetHz, refHz, h0, rfl | ⟨rfl, m⟩⟩ | ⟨rfl, n, frac, modulus, diva, refHz, rfl, h0⟩ := h
  · exact if_pos ⟨m, by simpa using hi⟩
  · exact (if_neg (by simp [Instr.op])).trans (if_pos h0)
  · exact (if_neg (by simp [m])).trans (if_pos h0)
  · exact (if_neg (by simp [Instr.op])).trans (if_pos h0)

/-- The table gives no fault to a command without a cause for one (R201). -/
theorem faultOf_eq_none {i : Instr} {s : State} (h : ∀ c, ¬ Raises i s c) : faultOf i s.mode = none := by
  have checked : ¬ (s.mode = .uninit ∧ i.op ∈ [.setf, .getf, .flush, .outsel, .outpwr, .setfreq]) :=
    fun ⟨m, hi⟩ => h .uninit (.inl ⟨rfl, m, by simpa using hi⟩)
  refine (if_neg checked).trans ?_
  cases i with
  | solve targetHz refHz => exact if_neg fun h0 => h .solveDomain (.inr (.inl ⟨rfl, targetHz, refHz, h0, .inl rfl⟩))
  | setfreq targetHz refHz =>
    have m : s.mode ≠ .uninit := fun m => checked ⟨m, by simp [Instr.op]⟩
    exact if_neg fun h0 => h .solveDomain (.inr (.inl ⟨rfl, targetHz, refHz, h0, .inr ⟨rfl, m⟩⟩))
  | proj n frac modulus diva refHz =>
    exact if_neg fun h0 => h .projDomain (.inr (.inr ⟨rfl, n, frac, modulus, diva, refHz, rfl, h0⟩))
  | reset | setf | getf | flush | outsel | outpwr | lockq => rfl

/-- Settles O55: the command raises the fault it has a cause for, if any, and so does the table; an illegal header raises its own
at decode. -/
theorem faultsFollowTheTable : Obligations.FaultsFollowTheTable := by
  refine ⟨fun i s hs => ?_, fun s h more hseq hfault hinbox illegal => ?_⟩
  · by_cases cause : ∃ c, Raises i s c
    · obtain ⟨c, cause⟩ := cause
      exact ⟨_, exec_of_raises cause, (faultOf_of_raises cause).symm⟩
    · obtain ⟨t, ht, -⟩ := exec_answers i s
      have kept : t.fault = s.fault := (exec_fault ht).resolve_right fun ⟨c, hc, _⟩ => cause ⟨c, hc⟩
      exact ⟨t, ht, by rw [kept, hs, faultOf_eq_none (not_exists.mp cause)]; rfl⟩
  · obtain ⟨-, raises⟩ := illegalHeadersFaultAtDecode
    exact ⟨_, raises s h more hseq hfault hinbox illegal, rfl⟩

end Sys2Proof.Machine

/-! PROOFS. The family 70_reset_and_hazards.md: the power-on reset. -/

namespace Sys2Proof.Machine

/-- A power-on reset asserted next takes the block to the power-on state, whatever its fault record and sequencer hold (R220). -/
theorem step_eq_powerOn {s : State} {more : List HostInput} (h : s.inbox = .powerOn :: more) :
    step s = .next (powerOn more s) := by
  rw [step, stepPort, h]

/-- Settles O10: a reset asserted next gives the power-on state, and the block at reset, ready and offered nothing, waits. -/
theorem powerOnResetFromAnyState : Obligations.PowerOnResetFromAnyState := by
  refine ⟨fun s more h => ⟨powerOn more s, step_eq_powerOn h, ?_⟩, rfl, ?_⟩
  · exact ⟨rfl, rfl, rfl, rfl, rfl, rfl, rfl, rfl, rfl, rfl⟩
  · exact readyBlockWaitsForAWholeCommand State.reset [] rfl rfl rfl rfl

end Sys2Proof.Machine
